-- ==== Sys2Proof/Word.lean ====
section
/-! DEFINITION. The word types of the TBU (spec 00_scope.md section 6, 30_encoding.md R70, R71, R78). All values
are unsigned. -/

namespace Sys2Proof

/-- The 32-bit unsigned word: the counter `OVRF`, the operand field, every result (R16, R21, R72, R78). -/
abbrev Word := BitVec 32

/-- One byte of the counter byte space `CB` (R50). -/
abbrev Byte := BitVec 8

/-- `cmd_word[39:0]`, one host command (R70, R71). -/
abbrev CmdWord := BitVec 40

/-- `resp_word[33:0]`, one response: the status in bits 33:32, the value in bits 31:0 (R70, R78). -/
abbrev RespWord := BitVec 34

end Sys2Proof
end

