-- ==== Sys2Proof/Syntax.lean ====
section
/-! DEFINITION. The fourteen host commands of the TBU, one constructor for each row of spec/opcode_table.json
(30_encoding.md R73). An operand has the width its format gives it (R71, R72), so a value that does not fit cannot be
written as a command; the assembler (Machine/Assembler.lean) is where such a value is refused (R80). -/

namespace Sys2Proof

/-- A command of the TBU (R73). -/
inductive Instr where
  /-- does nothing and responds (R150) -/
  | nop
  /-- reads the status register (R151) -/
  | rdst
  /-- returns the interrupt-enable flag (R152) -/
  | ieget
  /-- writes the interrupt-enable flag (R153) -/
  | ieset (b : BitVec 1)
  /-- reads byte 0 of the counter (R95) -/
  | rdb0
  /-- reads byte 1 of the counter (R96) -/
  | rdb1
  /-- reads byte 2 of the counter (R97) -/
  | rdb2
  /-- reads byte 3 of the counter (R98) -/
  | rdb3
  /-- `millis()` (R114) -/
  | rdms
  /-- `micros()` (R115) -/
  | rdus
  /-- `REAL_MILLIS(n)` (R117) -/
  | rlms (n : Word)
  /-- `REAL_MICROS(n)` (R118) -/
  | rlus (n : Word)
  /-- `delayMicroseconds(us)` (R132) -/
  | dlyus (us : BitVec 16)
  /-- `delay(ms)` (R134) -/
  | dlyms (ms : Word)
  deriving DecidableEq, Repr

end Sys2Proof
end

