-- ==== Sys2Proof/Machine/Datapath.lean ====
section
/-! DEFINITION. The arithmetic of the TBU, free of state: the barrel shifter, the multiply-and-shift scaler, the
correction scaler and the iteration count of the busy-wait loop (spec 00_scope.md section 7, 41_scaler.md R110, R111,
R116, R121, 42_delay.md R130), and the exact ratios they approximate (00_scope.md R7, R8). Everything is computed on
natural numbers and narrowed once, at the end. -/

namespace Sys2Proof.Machine

/-- `Shr(x, s) = floor(x / 2^s)`, the logical right shift of the barrel shifter (R110). -/
def shr (x s : Nat) : Nat := x / 2 ^ s

/-- The shift amounts a shift-select mask stands for: the `s` in 1..31 with `S[s] = 1`, lowest first. Bit 0 selects
nothing, and no amount appears twice (R6, R111, D13). -/
def shiftAmounts (S : Word) : List Nat := (List.range' 1 31).filter (fun s => S.getLsbD s)

/-- `ShiftSum(S, x)`: the sum of `Shr(x, s)` over the selected amounts, a natural number (R111). -/
def shiftSum (S : Word) (x : Nat) : Nat := ((shiftAmounts S).map (shr x)).sum

/-- `V(K, S, x) = K * x + ShiftSum(S, x)`, the unreduced value of the scaler (R112). -/
def scaleTotal (K S x : Word) : Nat := K.toNat * x.toNat + shiftSum S x.toNat

/-- `Scale(K, S, x) = V(K, S, x) mod 2^32`, reduced once and silently (R111, R121). -/
def scale (K S x : Word) : Word := BitVec.ofNat 32 (scaleTotal K S x)

/-- `Real(N, n) = floor(n * N / 1_000_000)`, from the exact product (R116). For `N` at most 1_000_000 the quotient is
at most `n` and fits 32 bits. -/
def realTicks (N : BitVec 20) (n : Word) : Word := BitVec.ofNat 32 (n.toNat * N.toNat / 1000000)

/-- `T(us) = KD * us + ShiftSum(SD, us)` (R130). -/
def loopTotal (KD : BitVec 16) (SD : Word) (us : BitVec 16) : Nat := KD.toNat * us.toNat + shiftSum SD us.toNat

/-- `Iters(us) = max(0, T(us) - OVH)`: the subtraction of natural numbers stops at 0, as R130 asks. -/
def itersNat (KD : BitVec 16) (SD OVH : Word) (us : BitVec 16) : Nat := loopTotal KD SD us - OVH.toNat

/-- `Iters(us)` as the 32-bit value loaded into `ITER` (R130); `T(us) < 2^32`, so nothing is lost. -/
def iters (KD : BitVec 16) (SD OVH : Word) (us : BitVec 16) : Word := BitVec.ofNat 32 (itersNat KD SD OVH us)

/-- `r_ms = 256 * PRESC * 1000 / FCPU`, the milliseconds one overflow lasts, exactly (R7). -/
def ratioMs (fcpu presc : Nat) : ℚ := 256 * presc * 1000 / fcpu

/-- `r_us = 256 * PRESC * 1_000_000 / FCPU`, the microseconds one overflow lasts, exactly (R7). -/
def ratioUs (fcpu presc : Nat) : ℚ := 256 * presc * 1000000 / fcpu

/-- `Approx(K, S) = K + sum of 2^(-s)` over the selected amounts, exactly (R8). -/
def approx (K S : Word) : ℚ := K.toNat + ((shiftAmounts S).map (fun s => (1 : ℚ) / 2 ^ s)).sum

end Sys2Proof.Machine
end

