-- ==== Sys2Proof/Config.lean ====
section
/-! DEFINITION. What an implementation fixes and what the environment decides: the configuration record `CFG` of
spec 00_scope.md R6, the supported set of R11, the timing parameters of 70_reset_and_hazards.md R205, and the moves
of 10_state.md R35 with the free value that chooses among them. Well-formedness of a record is in WellFormed.lean. -/

namespace Sys2Proof

/-- The configuration record `CFG`, exactly the fields of R6. It is a parameter of the machine: no step writes it
(R5, R33). The two accuracy tolerances default to the loosest value when absent (R12). -/
structure Cfg where
  /-- `FCPU`, the CPU clock frequency in Hz -/
  fcpu : Nat
  /-- `PRESC`, the timer prescale divisor -/
  presc : Nat
  /-- `PPM_MS`, permissible slow drift of the millisecond output -/
  ppmMs : BitVec 20 := 1000000
  /-- `PPM_US`, permissible slow drift of the microsecond output -/
  ppmUs : BitVec 20 := 1000000
  /-- `TBEN`: the timebase is enabled -/
  tben : Bool
  /-- `DCAL`: the delay constants are the interrupt-calibrated set -/
  dcal : Bool
  /-- `KMS`, multiplier of the millisecond scaler -/
  kms : Word
  /-- `SMS`, shift-select mask of the millisecond scaler -/
  sms : Word
  /-- `KUS`, multiplier of the microsecond scaler -/
  kus : Word
  /-- `SUS`, shift-select mask of the microsecond scaler -/
  sus : Word
  /-- `NMS`, scale numerator of `REAL_MILLIS` -/
  nms : BitVec 20
  /-- `NUS`, scale numerator of `REAL_MICROS` -/
  nus : BitVec 20
  /-- `KD`, multiplier of the delay scaler -/
  kd : BitVec 16
  /-- `SD`, shift-select mask of the delay scaler -/
  sd : Word
  /-- `OVH`, the overhead subtracted from the scaled count -/
  ovh : Word
  /-- `MIN`, requests at or below it return at once -/
  min : BitVec 16
  deriving DecidableEq, Repr

/-- `Iters(us)` for the delay constants of a record (R130). -/
abbrev Cfg.iters (c : Cfg) (us : BitVec 16) : Word := Machine.iters c.kd c.sd c.ovh us

/-- The timing parameters, in CPU clock cycles (R205). Every one is open (D24), and no step reads them. `cBase` is
the constant that R205 adds to the duration of a `DLYMS` and leaves unnamed (log entry 14). -/
structure Timing where
  /-- `C_ITER`, one loop iteration -/
  cIter : Nat
  /-- `C_SETUP`, a `DLYUS` that loops, outside its iterations -/
  cSetup : Nat
  /-- `C_EARLY`, a `DLYUS` that returns at once -/
  cEarly : Nat
  /-- `C_ISR`, what one INC inside a command adds -/
  cIsr : Nat
  /-- `C_MS`, what `DLYMS` adds for each millisecond -/
  cMs : Nat
  /-- the constant of a `DLYMS` -/
  cBase : Nat
  deriving DecidableEq, Repr

/-- One turn of the environment's schedule: which of the five kinds of step R35 names comes next. The spec fixes no
order and no priority among them (R35, R168), so the order is data. -/
inductive Move where
  /-- EV: an overflow event arrives on `ovf_ev` (R90) -/
  | ev
  /-- INC: the interrupt agent's turn (R91) -/
  | inc
  /-- ISSUE(w): the host presents the command word `w` (R74) -/
  | issue (w : CmdWord)
  /-- SEQ: the sequencer's turn (R35) -/
  | seq
  /-- RESET: `rst` is asserted (R190) -/
  | reset
  deriving DecidableEq, Repr, Inhabited

/-- FREE VALUE (log entry 3): the turn the environment takes at the `n`-th step for which no schedule was written
out. Events, commands and the order of the agents are unconstrained inputs (R17, R35, R90); nothing says which they are. -/
opaque Config.freeMove : Nat → Move

/-- OPEN (D22, log entry 4): which of the divisors 1, 8, 64 the build offers with a 16 kHz timer clock. -/
opaque Config.index16k : Fin 3

/-- OPEN (D22, log entry 4): the supported pairs the source does not list. -/
opaque Config.otherPairs : List (Nat × Nat)

/-- The three prescale divisors (R6). -/
def Config.divisors : List Nat := [1, 8, 64]

/-- The divisor of the supported pair with a 16 kHz timer clock (R11, D22). -/
def Config.presc16k : Nat := Config.divisors.getD Config.index16k.val 1

/-- `SUPPORTED` (R11): a finite set of pairs `(FCPU, PRESC)` with `PRESC` in 1, 8, 64. The source's scenarios put in
it (8_000_000, 64) and a pair with `FCPU / PRESC = 16_000`; the rest is open. -/
def Config.supported : List (Nat × Nat) :=
  (8000000, 64) :: (16000 * Config.presc16k, Config.presc16k) ::
    Config.otherPairs.filter (fun p => p.2 ∈ Config.divisors)

end Sys2Proof
end

