-- ==== Sys2Proof/WellFormed.lean ====
section
/-! DEFINITION. Well-formedness: which commands exist in a build (spec 30_encoding.md R73, R76), and which
configuration records a TBU can be built from (00_scope.md R9, R10). An ill-formed record is a build-time failure:
no machine exists for it, and every state of a machine carries the proof of the check of its record. -/

namespace Sys2Proof

/-- The column "needs `TBEN`" of R73: the commands that exist only when the timebase is enabled. -/
def Instr.needsTben : Instr → Bool
  | .nop => false
  | .rdst => false
  | .ieget => false
  | .ieset _ => false
  | .rdb0 => true
  | .rdb1 => true
  | .rdb2 => true
  | .rdb3 => true
  | .rdms => true
  | .rdus => true
  | .rlms _ => true
  | .rlus _ => true
  | .dlyus _ => false
  | .dlyms _ => false

/-- The command exists in a build with this `TBEN` (R76). -/
def Instr.presentIn (tben : Bool) (i : Instr) : Bool := !i.needsTben || tben

namespace Cfg

/-- W1: `FCPU > 0` and `PRESC` is 1, 8 or 64. -/
abbrev W1 (c : Cfg) : Prop := 0 < c.fcpu ∧ c.presc ∈ Config.divisors

/-- W2: the pair `(FCPU, PRESC)` is supported. -/
abbrev W2 (c : Cfg) : Prop := (c.fcpu, c.presc) ∈ Config.supported

/-- W3: both tolerances are at most 1_000_000. -/
abbrev W3 (c : Cfg) : Prop := c.ppmMs.toNat ≤ 1000000 ∧ c.ppmUs.toNat ≤ 1000000

/-- W4: bit 0 of each shift-select mask is 0. `SMS` and `SUS` are unconstrained when `TBEN = 0` (R9). -/
abbrev W4 (c : Cfg) : Prop :=
  (c.tben = true → c.sms.getLsbD 0 = false ∧ c.sus.getLsbD 0 = false) ∧ c.sd.getLsbD 0 = false

/-- `r_ms` of the record (R7). -/
def rMs (c : Cfg) : ℚ := Machine.ratioMs c.fcpu c.presc

/-- `r_us` of the record (R7). -/
def rUs (c : Cfg) : ℚ := Machine.ratioUs c.fcpu c.presc

/-- `r'_ms` of the record (R8). -/
def aMs (c : Cfg) : ℚ := Machine.approx c.kms c.sms

/-- `r'_us` of the record (R8). -/
def aUs (c : Cfg) : ℚ := Machine.approx c.kus c.sus

/-- W5, the slow bias: neither conversion factor exceeds the true ratio. -/
abbrev W5 (c : Cfg) : Prop := c.tben = true → c.aMs ≤ c.rMs ∧ c.aUs ≤ c.rUs

/-- W6, the accuracy budget, on the error of the ratio (D23). -/
abbrev W6 (c : Cfg) : Prop :=
  c.tben = true →
    (c.rMs - c.aMs) * 1000000 ≤ (c.ppmMs.toNat : ℚ) * c.rMs ∧ (c.rUs - c.aUs) * 1000000 ≤ (c.ppmUs.toNat : ℚ) * c.rUs

/-- W7: the scale numerators are the rounded-down correction factors. -/
abbrev W7 (c : Cfg) : Prop :=
  c.tben = true →
    (c.nms.toNat : ℤ) = ⌊1000000 * c.aMs / c.rMs⌋ ∧ (c.nus.toNat : ℤ) = ⌊1000000 * c.aUs / c.rUs⌋

/-- W8: `DCAL = 1` only if `TBEN = 1`. -/
abbrev W8 (c : Cfg) : Prop := c.dcal = true → c.tben = true

/-- W9, the delay floor: every request above the threshold runs at least one iteration. -/
abbrev W9 (c : Cfg) : Prop :=
  ∀ us : BitVec 16, c.min.toNat < us.toNat → c.ovh.toNat < Machine.loopTotal c.kd c.sd us

/-- `WF(CFG)` (R9): W1 to W9, one field each. W3 is asked when `TBEN = 1` only, since with `TBEN = 0` the tolerances
are unconstrained (R9, log entry 5). -/
structure WF (c : Cfg) : Prop where
  w1 : c.W1
  w2 : c.W2
  w3 : c.tben = true → c.W3
  w4 : c.W4
  w5 : c.W5
  w6 : c.W6
  w7 : c.W7
  w8 : c.W8
  w9 : c.W9

end Cfg

/-- CFG-A of spec 95_test_vectors.md section 0: the witness that a well-formed record exists. -/
def Config.exampleA : Cfg :=
  { fcpu := 8000000, presc := 64, ppmMs := 1000, ppmUs := 1000000, tben := true, dcal := false, kms := 2, sms := 0x60,
    kus := 2048, sus := 0, nms := 999450, nus := 1000000, kd := 2, sd := 0, ovh := 4, min := 2 }

theorem Config.exampleA_wf : Config.exampleA.WF where
  w1 := by decide
  w2 := List.mem_cons_self
  w3 := by decide
  w4 := by decide
  w5 := by decide +kernel
  w6 := by decide +kernel
  w7 := by decide +kernel
  w8 := by decide
  w9 := by
    intro us h
    have h0 : Machine.shiftSum 0 us.toNat = 0 := by simp [Machine.shiftSum, Machine.shiftAmounts]
    simp only [Config.exampleA, Machine.loopTotal] at h ⊢
    simp at h ⊢
    omega

/-- A record with the proof of the check: what a TBU can be built from (R10, D21). -/
structure Build where
  cfg : Cfg := Config.exampleA
  wf : cfg.WF := by exact Config.exampleA_wf
  deriving Inhabited

/-- The build-time check (R10, R176): a record that fails any of W1 to W9 is refused, and no machine comes of it. -/
def Cfg.elaborate (c : Cfg) : Option Build :=
  if h : c.W1 ∧ c.W2 ∧ (c.tben = true → c.W3) ∧ c.W4 ∧ c.W5 ∧ c.W6 ∧ c.W7 ∧ c.W8 ∧ c.W9 then
    some ⟨c, ⟨h.1, h.2.1, h.2.2.1, h.2.2.2.1, h.2.2.2.2.1, h.2.2.2.2.2.1, h.2.2.2.2.2.2.1, h.2.2.2.2.2.2.2.1,
      h.2.2.2.2.2.2.2.2⟩⟩
  else none

/-- OPEN (R5, R6, log entry 2): the record this TBU was built from. Nothing says which well-formed record it is. -/
opaque Config.build : Build

end Sys2Proof
end

