-- ==== Sys2Proof/Decode.lean ====
section
/-! DEFINITION. Command encoding (spec 30_encoding.md): the formats of R71, the opcode map of R73 as a table, the
decoder of R74 and R75 (total on every 40-bit word, rejecting by name), and the encoder. Presence in the build (R76)
is checked where a command is accepted (Machine/Ops.lean), after the decoder, in the order of R74. -/

namespace Sys2Proof

/-- The four formats, which differ in how much of the operand field is used (R71). -/
inductive Format where
  | c0
  | c1
  | c16
  | c32
  deriving DecidableEq, Repr

/-- How many low bits of the operand field a format uses; the bits above are reserved and must be zero (R71). -/
def Format.usedBits : Format → Nat
  | .c0 => 0
  | .c1 => 1
  | .c16 => 16
  | .c32 => 32

/-- `opc = w[39:32]` (R71). -/
def opcField (w : CmdWord) : BitVec 8 := w.extractLsb' 32 8

/-- `imm = w[31:0]` (R71). -/
def immField (w : CmdWord) : Word := w.extractLsb' 0 32

/-- The opcode of a command (R73). -/
def Instr.opc : Instr → BitVec 8
  | .nop => 0x00
  | .rdst => 0x01
  | .ieget => 0x02
  | .ieset _ => 0x03
  | .rdb0 => 0x10
  | .rdb1 => 0x11
  | .rdb2 => 0x12
  | .rdb3 => 0x13
  | .rdms => 0x20
  | .rdus => 0x21
  | .rlms _ => 0x22
  | .rlus _ => 0x23
  | .dlyus _ => 0x30
  | .dlyms _ => 0x31

/-- The format of a command (R71, R73). -/
def Instr.format : Instr → Format
  | .nop => .c0
  | .rdst => .c0
  | .ieget => .c0
  | .ieset _ => .c1
  | .rdb0 => .c0
  | .rdb1 => .c0
  | .rdb2 => .c0
  | .rdb3 => .c0
  | .rdms => .c0
  | .rdus => .c0
  | .rlms _ => .c32
  | .rlus _ => .c32
  | .dlyus _ => .c16
  | .dlyms _ => .c32

/-- The command an opcode names, its operand taken from the low bits of the operand field its format uses; `none` for
an unassigned opcode (R72, R73). Reserved bits are not looked at here: a busy sequencer selects by `OPC` alone (R35). -/
def instrOfOpc (opc : BitVec 8) (imm : Word) : Option Instr :=
  match opc.toNat with
  | 0x00 => some .nop
  | 0x01 => some .rdst
  | 0x02 => some .ieget
  | 0x03 => some (.ieset (imm.extractLsb' 0 1))
  | 0x10 => some .rdb0
  | 0x11 => some .rdb1
  | 0x12 => some .rdb2
  | 0x13 => some .rdb3
  | 0x20 => some .rdms
  | 0x21 => some .rdus
  | 0x22 => some (.rlms imm)
  | 0x23 => some (.rlus imm)
  | 0x30 => some (.dlyus (imm.extractLsb' 0 16))
  | 0x31 => some (.dlyms imm)
  | _ => none

/-- Why a word is no command. Both are the fault `Illegal` (R75, R162); the names say which half of R75 it is. -/
inductive Reject where
  /-- R75 (a): the opcode is in no row of R73 -/
  | unassignedOpcode
  /-- R75 (b): an assigned opcode with a non-zero reserved operand bit -/
  | reservedOperandBits
  deriving DecidableEq, Repr

/-- Step 1 of decoding (R74): every word is exactly one command, or is rejected by name. -/
def decode (w : CmdWord) : Except Reject Instr :=
  match instrOfOpc (opcField w) (immField w) with
  | none => .error .unassignedOpcode
  | some i => if immField w >>> i.format.usedBits = 0 then .ok i else .error .reservedOperandBits

/-- The operand of a command, `zext_32` of the used part of the operand field (R72). -/
def Instr.operand : Instr → Word
  | .nop => 0
  | .rdst => 0
  | .ieget => 0
  | .ieset b => b.setWidth 32
  | .rdb0 => 0
  | .rdb1 => 0
  | .rdb2 => 0
  | .rdb3 => 0
  | .rdms => 0
  | .rdus => 0
  | .rlms n => n
  | .rlus n => n
  | .dlyus us => us.setWidth 32
  | .dlyms ms => ms

/-- The word of a command: opcode in bits 39:32, operand below it, reserved bits zero (R71). -/
def encode (i : Instr) : CmdWord := i.opc ++ i.operand

/-- One row of the opcode map (R73). -/
structure Row where
  mnemonic : String
  opc : BitVec 8
  format : Format
  pattern : CmdWord
  mask : CmdWord
  needsTben : Bool
  deriving DecidableEq, Repr

/-- A word selects a row exactly when `(w and mask) = match` (R73). -/
def Row.matches (r : Row) (w : CmdWord) : Bool := w &&& r.mask == r.pattern

/-- The fourteen rows of R73, as the spec prints them. -/
def opcodeTable : List Row :=
  [ ⟨"NOP", 0x00, .c0, 0x0000000000, 0xFFFFFFFFFF, false⟩,
    ⟨"RDST", 0x01, .c0, 0x0100000000, 0xFFFFFFFFFF, false⟩,
    ⟨"IEGET", 0x02, .c0, 0x0200000000, 0xFFFFFFFFFF, false⟩,
    ⟨"IESET", 0x03, .c1, 0x0300000000, 0xFFFFFFFFFE, false⟩,
    ⟨"RDB0", 0x10, .c0, 0x1000000000, 0xFFFFFFFFFF, true⟩,
    ⟨"RDB1", 0x11, .c0, 0x1100000000, 0xFFFFFFFFFF, true⟩,
    ⟨"RDB2", 0x12, .c0, 0x1200000000, 0xFFFFFFFFFF, true⟩,
    ⟨"RDB3", 0x13, .c0, 0x1300000000, 0xFFFFFFFFFF, true⟩,
    ⟨"RDMS", 0x20, .c0, 0x2000000000, 0xFFFFFFFFFF, true⟩,
    ⟨"RDUS", 0x21, .c0, 0x2100000000, 0xFFFFFFFFFF, true⟩,
    ⟨"RLMS", 0x22, .c32, 0x2200000000, 0xFF00000000, true⟩,
    ⟨"RLUS", 0x23, .c32, 0x2300000000, 0xFF00000000, true⟩,
    ⟨"DLYUS", 0x30, .c16, 0x3000000000, 0xFFFFFF0000, false⟩,
    ⟨"DLYMS", 0x31, .c32, 0x3100000000, 0xFF00000000, false⟩ ]

/-- The word whose `nbits` low bits are those of `w` and whose other bits are 0. A command word is one 40-bit parallel
value, so there is no byte order in it (R53, R70). -/
def tableWord (nbits w : Nat) : CmdWord := BitVec.ofNat 40 (w % 2 ^ nbits)

/-- The command the decoder reads from the word numbered as spec/opcode_table.json numbers it; `none` where it
refuses. -/
def decodeTableWord (nbits w : Nat) : Option Instr :=
  match decode (tableWord nbits w) with
  | .ok i => some i
  | .error _ => none

end Sys2Proof
end

