-- ==== Sys2Proof/Machine/State.lean ====
section
/-! DEFINITION. The state of the TBU: the twelve registers of spec 10_state.md R20, the configuration the machine was
built with, the response port, and the environment's schedule; the reasons a step can stop; the state after reset.
The counter byte space `CB` is a view of `OVRF` (20_memory.md R50, R57) and has no storage of its own. -/

namespace Sys2Proof.Machine

/-- The state. The twelve registers are the spec's (R20); the record, the response port and the schedule are the model's
own fields (log entries 1, 2, 3 and 8). -/
@[ext]
structure State where
  /-- the record `CFG` this machine was built with; a parameter that no step writes (R5, R33) -/
  cfg : Cfg
  /-- the build-time check of that record: there is no machine, and so no state, over an ill-formed one (R10, D21) -/
  wf : cfg.WF
  /-- `OVRF`, the overflow counter (R21) -/
  ovrf : Word
  /-- `OVP`, an overflow event is pending (R22) -/
  ovp : Bool
  /-- `IE`, interrupts are enabled (R23) -/
  ie : Bool
  /-- `IESAVE`, the `IE` that the masked read in progress found (R24) -/
  iesave : Bool
  /-- `SNAP`, the snapshot latch (R25) -/
  snap : Word
  /-- `ARG`, the operand latch (R26) -/
  arg : Word
  /-- `ITER`, the loop down-counter (R27) -/
  iter : Word
  /-- `MSREM`, milliseconds still to wait (R28) -/
  msrem : Word
  /-- `BUSY`, a command is in progress (R29) -/
  busy : Bool
  /-- `OPC`, the opcode of the command in progress (R29) -/
  opc : BitVec 8
  /-- `PH`, the phase the next SEQ step executes (R30) -/
  ph : BitVec 3
  /-- `FAULT`, the sticky fault flag (R31) -/
  fault : Bool
  /-- the response port after the last step: `some resp_word` when `resp_valid` is 1, a one-step pulse (R70) -/
  resp : Option RespWord
  /-- the environment's next moves, in order, as far as they are written out -/
  moves : List Move
  /-- how many moves have been taken from the free schedule `Config.freeMove` -/
  freeTurns : Nat
  deriving DecidableEq, Repr

/-- Why the machine stops. All three are the `stuck` states of spec 93_implementation_defined.md U12: SEQ has no step in
them. No state that a run from reset reaches is one of them (R38), so stopping is safe. -/
inductive Fault where
  /-- raised by a SEQ turn: `BUSY = 1` and `OPC` is in no row of R73 (safe) -/
  | stuckOpcode
  /-- raised by a SEQ turn: `BUSY = 1` and `OPC` is a command this build does not have (safe) -/
  | stuckAbsent
  /-- raised by a SEQ turn: `PH` is past the last phase of the command in progress (safe) -/
  | stuckPhase
  deriving DecidableEq, Repr

/-- Why a step is refused. -/
inductive Refusal where
  /-- raised by `exec` for a command that has no meaning yet; no arm of this model raises it (safe) -/
  | notModelled (mnemonic : String)
  deriving DecidableEq, Repr

/-- `cmd_ready = not BUSY` (R70). -/
def State.cmdReady (s : State) : Bool := !s.busy

/-- The state right after reset of a machine built from `b`: all twelve registers are 0 (R37, R190), nothing stands on
the response port, and no move of the environment is written out. -/
def State.boot (b : Build) : State :=
  { cfg := b.cfg, wf := b.wf, ovrf := 0, ovp := false, ie := false, iesave := false, snap := 0, arg := 0, iter := 0,
    msrem := 0, busy := false, opc := 0, ph := 0, fault := false, resp := none, moves := [], freeTurns := 0 }

/-- The state right after reset (R37, R190, R192). -/
def State.reset : State := State.boot Config.build

end Sys2Proof.Machine
end

