-- ==== Sys2Proof/Machine/Operands.lean ====
section
/-! DEFINITION. Where a command's values come from and go to: the counter byte space `CB` (spec 20_memory.md R50 to R57),
the bytes of `SNAP`, the operand latch, and the response word (30_encoding.md R78). -/

namespace Sys2Proof.Machine

/-- Byte `k` of a word, byte 0 the least significant (R53). -/
def byteOf (v : Word) (k : Fin 4) : Byte := v.extractLsb' (8 * k.val) 8

/-- `MemRead(k, 1)`: byte `k` of the counter byte space, `OVRF[8k+7 : 8k]` of the state before the step (R51, R57). An
index above 3 and any other length cannot be expressed (R54). -/
def memRead (s : State) (k : Fin 4) : Byte := byteOf s.ovrf k

/-- The word `v` with byte `k` replaced, as phases 1 to 4 of `MaskedScale` write `SNAP` (R113). -/
def setByte (v : Word) (k : Fin 4) (b : Byte) : Word :=
  (v &&& ~~~((0xFF : Word) <<< (8 * k.val))) ||| (b.setWidth 32 <<< (8 * k.val))

/-- `ARG[0]`, the operand of `IESET` (R153). -/
def argBit (s : State) : Bool := s.arg.getLsbD 0

/-- `ARG[15:0]`, the operand of `DLYUS` (R132). -/
def argMicros (s : State) : BitVec 16 := s.arg.extractLsb' 0 16

/-- `zext_32` of a flag (spec 00_scope.md section 6). -/
def flagWord (b : Bool) : Word := (BitVec.ofBool b).setWidth 32

/-- The status codes (R78, R161). The code 3 is none of them. -/
inductive Status where
  /-- `OK = 0` -/
  | ok
  /-- `ILLEGAL = 1` -/
  | illegal
  /-- `ABSENT = 2` -/
  | absent
  deriving DecidableEq, Repr

/-- The 2-bit code of a status (R78). -/
def Status.code : Status → BitVec 2
  | .ok => 0
  | .illegal => 1
  | .absent => 2

/-- The response word `{st, val}` (R78). -/
def respWord (st : Status) (v : Word) : RespWord := st.code ++ v

/-- `st = resp_word[33:32]` (R78). -/
def respStatus (r : RespWord) : BitVec 2 := r.extractLsb' 32 2

/-- `val = resp_word[31:0]` (R78). -/
def respValue (r : RespWord) : Word := r.extractLsb' 0 32

end Sys2Proof.Machine
end

