-- ==== Sys2Proof/Machine/Flags.lean ====
section
/-! DEFINITION. The flags `OVP`, `IE`, `IESAVE`, `FAULT` and the view `STATUS` (spec 10_state.md R22 to R24, R31, R32). The
TBU has no arithmetic condition codes. -/

namespace Sys2Proof.Machine

/-- `STATUS = {27'b0, DCAL, TBEN, FAULT, OVP, IE}`, assembled when `RDST` executes (R32, R151). -/
def statusWord (s : State) : Word :=
  (0 : BitVec 27) ++ BitVec.ofBool s.cfg.dcal ++ BitVec.ofBool s.cfg.tben ++ BitVec.ofBool s.fault ++
    BitVec.ofBool s.ovp ++ BitVec.ofBool s.ie

/-- `IE <- b` (R153). -/
def setIe (b : Bool) (s : State) : State := { s with ie := b }

/-- `IESAVE <- IE; IE <- 0`, both from the state before the step (R113 phase 0). -/
def saveAndMask (s : State) : State := { s with iesave := s.ie, ie := false }

/-- `IE <- IESAVE`, the exact restore (R24, R113 phase 5). -/
def restoreIe (s : State) : State := { s with ie := s.iesave }

/-- `if CFG.TBEN = 1 then OVP <- 1` (R90): one pending bit, so an event that finds it set is lost (R93). -/
def setPending (s : State) : State := { s with ovp := s.ovp || s.cfg.tben }

/-- INC is enabled exactly when `TBEN = 1` and `IE = 1` and `OVP = 1` (R35, R91, R166). -/
def incEnabled (s : State) : Bool := s.cfg.tben && s.ie && s.ovp

/-- `FAULT <- 1`, sticky (R31, R164). -/
def recordFault (s : State) : State := { s with fault := true }

end Sys2Proof.Machine
end

