-- ==== Sys2Proof/Machine/Ops.lean ====
section
/-! DEFINITION. The operations every command shares: responding and completing, the phase register, raising a fault,
accepting a command at ISSUE, taking the overflow interrupt (spec 30_encoding.md R74, R78, 60_exceptions.md R164, R169),
and the frame of a command: from an idle TBU it is issued, in a busy one it runs its phase. -/

namespace Sys2Proof.Machine

/-- The outcome of one step of this machine. -/
abbrev Result := Host.Outcome State Fault Refusal

/-- `resp(st, v)`: one response word on the response port (R78). -/
def respond (st : Status) (v : Word) (s : State) : State := { s with resp := some (respWord st v) }

/-- `PH <- n`, the control transfer of the TBU (R30). -/
def goto (n : BitVec 3) (s : State) : State := { s with ph := n }

/-- `done(v)`: `resp(OK, v); BUSY <- 0; PH <- 0` (spec 00_scope.md section 6). -/
def done (v : Word) (s : State) : State := { respond .ok v s with busy := false, ph := 0 }

/-- TAKING A FAULT, the same for both (R164): in the ISSUE step itself `FAULT <- 1` and `resp(code, 0)`; nothing else
changes, control goes nowhere, and there is nothing to return from (R160, R171). -/
def raise (st : Status) (s : State) : State := respond st 0 (recordFault s)

/-- TAKING THE INTERRUPT (R91, R169): `OVRF <- (OVRF + 1) mod 2^32; OVP <- 0`, one indivisible step. It saves nothing,
so there is nothing to restore and no return (R170). -/
def takeInterrupt (s : State) : State := { s with ovrf := s.ovrf + 1, ovp := false }

/-- Step 3 of ISSUE (R74): `BUSY <- 1; OPC <- w[39:32]; ARG <- operand; PH <- 0`, no response yet. -/
def accept (i : Instr) (s : State) : State := { s with busy := true, opc := i.opc, arg := i.operand, ph := 0 }

/-- Steps 2 and 3 of ISSUE for a word that decoded to `i` (R74): a command this build does not have raises `Absent`
(R163), any other is accepted. -/
def issue (i : Instr) (s : State) : State := if i.presentIn s.cfg.tben then accept i s else raise .absent s

/-- The frame of a command. With `BUSY = 0` the step is ISSUE. With `BUSY = 1` it is SEQ, the phase the command
defines; a command the build does not have is never in progress, and SEQ has no step for it (U12). -/
def runCommand (i : Instr) (phase : State → Result) (s : State) : Result :=
  if s.busy then if i.presentIn s.cfg.tben then phase s else .fault .stuckAbsent else .next (issue i s)

/-- The phase of a command that has only phase 0 (R30): it completes with `f s`; no later phase has a step (U12). -/
def onePhase (f : State → State) (s : State) : Result := if s.ph = 0 then .next (f s) else .fault .stuckPhase

end Sys2Proof.Machine
end

