-- ==== Sys2Proof/Machine/Accumulator.lean ====
section
/-! DEFINITION. The overflow accumulator (spec 40_accumulator.md): the steps EV and INC, which are no host commands, and
the byte reads `RDB0` to `RDB3`. -/

namespace Sys2Proof.Machine

/-- EV (R90, R93, R94): always possible; it sets `OVP` when the timebase is enabled and changes nothing else. -/
def stepEv (s : State) : Result := .next (setPending s)

/-- INC (R91): the interrupt is taken when it is enabled. When it is not, the interrupt agent has no step and its turn
passes with nothing changed (log entry 7). -/
def stepInc (s : State) : Result := .next (if incEnabled s then takeInterrupt s else s)

/-- One byte read: `done(zext_32(MemRead(k, 1)))`. It does not mask interrupts. -/
def readByte (k : Fin 4) : State → Result := onePhase (fun s => done ((memRead s k).setWidth 32) s)

/-- R95: byte 0 of the counter, at the SEQ step. -/
def execRdb0 (s : State) : Result := runCommand .rdb0 (readByte 0) s

/-- R96: byte 1 of the counter. -/
def execRdb1 (s : State) : Result := runCommand .rdb1 (readByte 1) s

/-- R97: byte 2 of the counter. -/
def execRdb2 (s : State) : Result := runCommand .rdb2 (readByte 2) s

/-- R98: byte 3 of the counter. -/
def execRdb3 (s : State) : Result := runCommand .rdb3 (readByte 3) s

end Sys2Proof.Machine
end

