-- ==== Sys2Proof/Machine/Control.lean ====
section
/-! DEFINITION. The control commands (spec 43_control.md): `NOP`, `RDST`, `IEGET`, `IESET`. All exist in every build and
have one phase. -/

namespace Sys2Proof.Machine

/-- R150: `done(0)`. -/
def execNop (s : State) : Result := runCommand .nop (onePhase (done 0)) s

/-- R151: `done(STATUS)`, from the state before the step; reading clears nothing. -/
def execRdst (s : State) : Result := runCommand .rdst (onePhase (fun t => done (statusWord t) t)) s

/-- R152: `done(zext_32(IE))`. -/
def execIeget (s : State) : Result := runCommand .ieget (onePhase (fun t => done (flagWord t.ie) t)) s

/-- R153: `IE <- ARG[0]; done(0)`. The operand `b` is what ISSUE latches in `ARG`. -/
def execIeset (b : BitVec 1) (s : State) : Result :=
  runCommand (.ieset b) (onePhase (fun t => done 0 (setIe (argBit t) t))) s

end Sys2Proof.Machine
end

