-- ==== Sys2Proof/Machine/Delay.lean ====
section
/-! DEFINITION. The busy-wait loop synthesizer (spec 42_delay.md): `DLYUS` and `DLYMS`. Neither reads or writes `IE`, `OVP`,
`OVRF` or `FAULT`; a delay is a definite number of SEQ steps. -/

namespace Sys2Proof.Machine

/-- `ITER <- v` (R27). -/
def loadIter (v : Word) (s : State) : State := { s with iter := v }

/-- `MSREM <- v` (R28). -/
def loadMsrem (v : Word) (s : State) : State := { s with msrem := v }

/-- One step of the loop (R133): an iteration while `ITER` is not 0, and `exit` in the step that finds it 0. -/
def loopStep (exit : State → State) (s : State) : State := if s.iter = 0 then exit s else loadIter (s.iter - 1) s

/-- Start one microsecond delay (R131, R132 phase 0, R134 phase 1): a request at or below `MIN` goes on at once with
`early`; any other loads `ITER` and enters the loop at phase `loop`. -/
def startDelay (request : Nat) (us : BitVec 16) (early : State → State) (loop : BitVec 3) (s : State) : State :=
  if request ≤ s.cfg.min.toNat then early s else goto loop (loadIter (s.cfg.iters us) s)

/-- The two phases of `DLYUS` (R132). The threshold is compared with the whole of `ARG`, as the pseudocode has it. -/
def delayMicros (s : State) : Result :=
  match s.ph.toNat with
  | 0 => .next (startDelay s.arg.toNat (argMicros s) (done 0) 1 s)
  | 1 => .next (loopStep (done 0) s)
  | _ => .fault .stuckPhase

/-- The three phases of `DLYMS` (R134): `ARG` times what `DLYUS #1000` does, then one response. -/
def delayMillis (s : State) : Result :=
  match s.ph.toNat with
  | 0 => .next (goto 1 (loadMsrem s.arg s))
  | 1 => .next (if s.msrem = 0 then done 0 s else startDelay 1000 1000 (goto 1) 2 (loadMsrem (s.msrem - 1) s))
  | 2 => .next (loopStep (goto 1) s)
  | _ => .fault .stuckPhase

/-- R132. The operand `us` is what ISSUE latches in `ARG`. -/
def execDlyus (us : BitVec 16) (s : State) : Result := runCommand (.dlyus us) delayMicros s

/-- R134. The operand `ms` is what ISSUE latches in `ARG`. -/
def execDlyms (ms : Word) (s : State) : Result := runCommand (.dlyms ms) delayMillis s

end Sys2Proof.Machine
end

