-- ==== Sys2Proof/Machine/Scaler.lean ====
section
/-! DEFINITION. The timebase scaler (spec 41_scaler.md): the masked snapshot sequence and the clock reads `RDMS`, `RDUS`, and
the real-time correction commands `RLMS`, `RLUS`. -/

namespace Sys2Proof.Machine

/-- Phases 1 to 4 of `MaskedScale`: byte `k` of `SNAP` from byte `k` of `CB` (R113). -/
def copyByte (k : Fin 4) (s : State) : State := { s with snap := setByte s.snap k (memRead s k) }

/-- `MaskedScale(K, S)` (R113): save and mask, four byte copies, compute and restore. -/
def maskedScale (K S : Word) (s : State) : Result :=
  match s.ph.toNat with
  | 0 => .next (goto 1 (saveAndMask s))
  | 1 => .next (goto 2 (copyByte 0 s))
  | 2 => .next (goto 3 (copyByte 1 s))
  | 3 => .next (goto 4 (copyByte 2 s))
  | 4 => .next (goto 5 (copyByte 3 s))
  | 5 => .next (done (scale K S s.snap) (restoreIe s))
  | _ => .fault .stuckPhase

/-- R114: `MaskedScale(KMS, SMS)`. -/
def execRdms (s : State) : Result := runCommand .rdms (fun t => maskedScale t.cfg.kms t.cfg.sms t) s

/-- R115: `MaskedScale(KUS, SUS)`. -/
def execRdus (s : State) : Result := runCommand .rdus (fun t => maskedScale t.cfg.kus t.cfg.sus t) s

/-- R117: `done(Real(NMS, ARG))`. The operand `n` is what ISSUE latches in `ARG`. -/
def execRlms (n : Word) (s : State) : Result :=
  runCommand (.rlms n) (onePhase (fun t => done (realTicks t.cfg.nms t.arg) t)) s

/-- R118: `done(Real(NUS, ARG))`. The operand `n` is what ISSUE latches in `ARG`. -/
def execRlus (n : Word) (s : State) : Result :=
  runCommand (.rlus n) (onePhase (fun t => done (realTicks t.cfg.nus t.arg) t)) s

end Sys2Proof.Machine
end

