-- ==== Sys2Proof/Machine/Dispatch.lean ====
section
/-! DEFINITION. One arm for each command of spec/opcode_table.json: from an idle TBU its ISSUE step, in a busy one its
SEQ step at phase `PH`. -/

namespace Sys2Proof.Machine

def exec (i : Instr) (s : State) : Host.Outcome State Fault Refusal :=
  match i with
  -- control, 43_control.md
  | .nop => Sys2Proof.Machine.execNop s
  | .rdst => Sys2Proof.Machine.execRdst s
  | .ieget => Sys2Proof.Machine.execIeget s
  | .ieset b => Sys2Proof.Machine.execIeset b s
  -- counter bytes, 40_accumulator.md
  | .rdb0 => Sys2Proof.Machine.execRdb0 s
  | .rdb1 => Sys2Proof.Machine.execRdb1 s
  | .rdb2 => Sys2Proof.Machine.execRdb2 s
  | .rdb3 => Sys2Proof.Machine.execRdb3 s
  -- scaler, 41_scaler.md
  | .rdms => Sys2Proof.Machine.execRdms s
  | .rdus => Sys2Proof.Machine.execRdus s
  | .rlms n => Sys2Proof.Machine.execRlms n s
  | .rlus n => Sys2Proof.Machine.execRlus n s
  -- delay, 42_delay.md
  | .dlyus us => Sys2Proof.Machine.execDlyus us s
  | .dlyms ms => Sys2Proof.Machine.execDlyms ms s

end Sys2Proof.Machine
end

