-- ==== Sys2Proof/Machine/Moves.lean ====
section
/-! DEFINITION. The five kinds of step (spec 10_state.md R35) and the schedule that chooses among them. -/

namespace Sys2Proof.Machine

/-- ISSUE(w) (R74, R79): possible when `BUSY = 0`. A word no row matches raises `Illegal`; any other is handed to its
command, which checks its presence and is accepted. While `BUSY = 1` the word is not sampled and nothing changes (R203). -/
def stepIssue (w : CmdWord) (s : State) : Result :=
  if s.busy then .next s
  else
    match decode w with
    | .ok i => exec i s
    | .error _ => .next (raise .illegal s)

/-- SEQ (R35): possible when `BUSY = 1`; the command is the one `OPC` names. With `BUSY = 1` and an unassigned `OPC` it
has no step (U12); with `BUSY = 0` the sequencer's turn passes with nothing changed. -/
def stepSeq (s : State) : Result :=
  if s.busy then
    match instrOfOpc s.opc s.arg with
    | some i => exec i s
    | none => .fault .stuckOpcode
  else .next s

/-- All twelve registers at their reset value; the configuration and the environment are as before (R190, R192). -/
def clearRegisters (s : State) : State :=
  { s with ovrf := 0, ovp := false, ie := false, iesave := false, snap := 0, arg := 0, iter := 0, msrem := 0,
           busy := false, opc := 0, ph := 0, fault := false }

/-- RESET (R190, R191): always possible; a command in progress is abandoned and emits no response. -/
def stepReset (s : State) : Result := .next (clearRegisters s)

/-- One step of the kind the environment chose. -/
def runMove (m : Move) (s : State) : Result :=
  match m with
  | .ev => stepEv s
  | .inc => stepInc s
  | .issue w => stepIssue w s
  | .seq => stepSeq s
  | .reset => stepReset s

/-- The environment's next move: the next one written out, else the next one of the free schedule. -/
def State.nextMove (s : State) : Move :=
  match s.moves with
  | m :: _ => m
  | [] => Config.freeMove s.freeTurns

/-- The state the next move acts on: that move is used up, and the response pulse of the last step is over (R70). -/
def State.afterTurn (s : State) : State :=
  match s.moves with
  | _ :: rest => { s with resp := none, moves := rest }
  | [] => { s with resp := none, freeTurns := s.freeTurns + 1 }

/-- The TBU is idle and the host's next move is ISSUE of the word (`cmd_valid = 1`, `cmd_ready = 1`, R70). -/
def State.present (w : CmdWord) (s : State) : State :=
  { s with busy := false, ph := 0, moves := .issue w :: s.moves }

end Sys2Proof.Machine
end

