-- ==== Sys2Proof/Machine/Step.lean ====
section
/-! DEFINITION. One step of the TBU, and where a test puts the next command word. -/

namespace Sys2Proof.Machine

/-- One step: the environment's next move, carried out (spec 10_state.md R35). -/
def step (s : State) : Host.Outcome State Fault Refusal := runMove s.nextMove s.afterTurn

/-- The state whose very next step issues the given word: the TBU fetches nothing from a memory (R63), it samples the
command port, so the word is put there and the port is ready (log entry 6). -/
def State.withFetchWord (s : State) (nbits w : Nat) : State := s.present (tableWord nbits w)

end Sys2Proof.Machine
end

