-- ==== Sys2Proof/Machine/Assembler.lean ====
section
/-! DEFINITION. The host side's text (spec 30_encoding.md R80, R82): one command a line, checked and never truncated, and the
pseudo-instructions. The TBU sees only the words. -/

namespace Sys2Proof.Machine

/-- The value of a digit in the given base, letters in either case (R80). -/
def digitValue (base : Nat) (c : Char) : Option Nat :=
  let n := c.toNat
  let v :=
    if 48 ≤ n ∧ n ≤ 57 then n - 48
    else if 97 ≤ n ∧ n ≤ 102 then n - 87
    else if 65 ≤ n ∧ n ≤ 70 then n - 55
    else base
  if v < base then some v else none

/-- Digits, most significant first, read on from `acc`. -/
def readDigits (base acc : Nat) : List Char → Option Nat
  | [] => some acc
  | c :: cs =>
    match digitValue base c with
    | some d => readDigits base (acc * base + d) cs
    | none => none

/-- An unsigned decimal number, or `0x` and hexadecimal digits (R80). -/
def readNumber : List Char → Option Nat
  | [] => none
  | '0' :: 'x' :: c :: cs => readDigits 16 0 (c :: cs)
  | c :: cs => readDigits 10 0 (c :: cs)

/-- Text up to the comment, which runs from `;` to the end of the line (R80). -/
def dropComment : List Char → List Char
  | [] => []
  | c :: cs => if c = ';' then [] else c :: dropComment cs

/-- The blank-separated words of a line; `cur` holds the word being read, last character first. -/
def splitBlanks (cur : List Char) : List Char → List (List Char)
  | [] => if cur.isEmpty then [] else [cur.reverse]
  | c :: cs =>
    if c = ' ' ∨ c = '\t' then if cur.isEmpty then splitBlanks [] cs else cur.reverse :: splitBlanks [] cs
    else splitBlanks (c :: cur) cs

/-- A command without an operand, by its mnemonic, upper case (R73, R80, R82: `INTEN` is `IESET #1` and `INTDIS` is
`IESET #0`). -/
def bareCommand (m : List Char) : Option Instr :=
  if m = ['N', 'O', 'P'] then some .nop
  else if m = ['R', 'D', 'S', 'T'] then some .rdst
  else if m = ['I', 'E', 'G', 'E', 'T'] then some .ieget
  else if m = ['I', 'N', 'T', 'E', 'N'] then some (.ieset 1)
  else if m = ['I', 'N', 'T', 'D', 'I', 'S'] then some (.ieset 0)
  else if m = ['R', 'D', 'B', '0'] then some .rdb0
  else if m = ['R', 'D', 'B', '1'] then some .rdb1
  else if m = ['R', 'D', 'B', '2'] then some .rdb2
  else if m = ['R', 'D', 'B', '3'] then some .rdb3
  else if m = ['R', 'D', 'M', 'S'] then some .rdms
  else if m = ['R', 'D', 'U', 'S'] then some .rdus
  else none

/-- A command with an operand: a value that does not fit its format is rejected, never truncated (R80). -/
def operandCommand (m : List Char) (v : Nat) : Option Instr :=
  if m = ['I', 'E', 'S', 'E', 'T'] then if v < 2 ^ 1 then some (.ieset (BitVec.ofNat 1 v)) else none
  else if m = ['R', 'L', 'M', 'S'] then if v < 2 ^ 32 then some (.rlms (BitVec.ofNat 32 v)) else none
  else if m = ['R', 'L', 'U', 'S'] then if v < 2 ^ 32 then some (.rlus (BitVec.ofNat 32 v)) else none
  else if m = ['D', 'L', 'Y', 'U', 'S'] then if v < 2 ^ 16 then some (.dlyus (BitVec.ofNat 16 v)) else none
  else if m = ['D', 'L', 'Y', 'M', 'S'] then if v < 2 ^ 32 then some (.dlyms (BitVec.ofNat 32 v)) else none
  else none

/-- `RDOVF.U`, the unmasked four-byte read (R82). -/
def rdovfU : List Instr := [.rdb0, .rdb1, .rdb2, .rdb3]

/-- `RDOVF` for the value `s` that the host kept from the `IEGET`: save, mask, read, restore (R61, R82). -/
def rdovf (s : BitVec 1) : List Instr := [.ieget, .ieset 0] ++ rdovfU ++ [.ieset s]

/-- What the host assembles from the four values `b0` to `b3` of a byte-wise read: the bits 7:0 of each, `b3` on top
(R53, R82). -/
def assembleBytes (b0 b1 b2 b3 : Word) : Word :=
  b3.extractLsb' 0 8 ++ b2.extractLsb' 0 8 ++ b1.extractLsb' 0 8 ++ b0.extractLsb' 0 8

/-- One line of text (R80): `some []` for a blank or comment line, `none` for a line the assembler rejects. `RDOVF` needs
the value the host kept and is no fixed text, so it is not a line. -/
def assembleLine (line : List Char) : Option (List Instr) :=
  match splitBlanks [] (dropComment line) with
  | [] => some []
  | [m] => if m = ['R', 'D', 'O', 'V', 'F', '.', 'U'] then some rdovfU else (bareCommand m).map (fun i => [i])
  | [m, '#' :: v] => (readNumber v).bind (fun n => (operandCommand m n).map (fun i => [i]))
  | _ => none

/-- A program's text, line by line, as the command words the host issues in order (R80, R208). -/
def assemble : List (List Char) → Option (List CmdWord)
  | [] => some []
  | l :: ls => (assembleLine l).bind (fun is => (assemble ls).map (fun ws => is.map encode ++ ws))

end Sys2Proof.Machine
end

