-- ==== Sys2Proof/Machine/Generator.lean ====
section
/-! DEFINITION. The canonical table generator `Gen(r, PPM)` (spec 00_scope.md R13): the spec's reference procedure for
constants that satisfy W4, W5 and W6. No step of the machine uses it, and no TBU need have been configured by it. -/

namespace Sys2Proof.Machine

/-- Step 1: `K = floor(r)` (R13). -/
def genK (r : ℚ) : Nat := ⌊r⌋.toNat

/-- Step 2: `b_s = floor(phi * 2^s) mod 2`, the binary digits of the fraction `phi = r - K` (R13). -/
def genBit (r : ℚ) (s : Nat) : Bool := ⌊(r - genK r) * 2 ^ s⌋ % 2 == 1

/-- The stopping condition of step 3: the ratio is positive and within the budget (R13). -/
abbrev genStop (r : ℚ) (ppm : Nat) (K S : Word) : Prop := 0 < approx K S ∧ (r - approx K S) * 1000000 ≤ ppm * r

/-- Step 3 from the mask `S` on, with the shift amounts `todo` not yet looked at: stop when the condition holds, else set
the lowest remaining digit that is 1; fail when none remains (R13). -/
def genLoop (r : ℚ) (ppm : Nat) (K : Word) (todo : List Nat) (S : Word) : Option Word :=
  if genStop r ppm K S then some S
  else
    match todo with
    | [] => none
    | s :: rest => genLoop r ppm K rest (if genBit r s then S ||| (1#32 <<< s) else S)

/-- `Gen(r, PPM)`: the constants `(K, S)`, or failure (R13). -/
def gen (r : ℚ) (ppm : Nat) : Option (Word × Word) :=
  if 2 ^ 32 ≤ genK r then none
  else (genLoop r ppm (BitVec.ofNat 32 (genK r)) (List.range' 1 31) 0).map (fun S => (BitVec.ofNat 32 (genK r), S))

/-- W7's rule for a scale numerator: `floor(1_000_000 * r' / r)` (R9). -/
def numerator (r a : ℚ) : Int := ⌊1000000 * a / r⌋

end Sys2Proof.Machine
end

