-- ==== Sys2Proof/Machine/Timing.lean ====
section
/-! DEFINITION. Durations (spec 70_reset_and_hazards.md R205, R206), in CPU clock cycles, as functions of the open timing
parameters. No step of the machine reads them: the state machine has no notion of time (R204). -/

namespace Sys2Proof.Machine

/-- The overflow period `P = 256 * PRESC` (R205). -/
def overflowPeriod (c : Cfg) : Nat := 256 * c.presc

/-- The bounds R205 puts on the parameters: `C_ITER ≥ 1` and `C_ISR < 256 * PRESC`. -/
def timingOk (t : Timing) (c : Cfg) : Prop := 1 ≤ t.cIter ∧ t.cIsr < overflowPeriod c

/-- `D(us, j)`: the duration of `DLYUS #us` with `j` INC steps inside it (R205). -/
def microsCycles (t : Timing) (c : Cfg) (us : BitVec 16) (j : Nat) : Nat :=
  if us ≤ c.min then t.cEarly + j * t.cIsr else t.cSetup + t.cIter * (c.iters us).toNat + j * t.cIsr

/-- The duration of a `DLYMS`, one entry of `js` for each millisecond: how many INC steps fall inside that inner delay;
`outside` more fall inside the command but in no inner delay. The sum of the durations of the `DLYUS #1000`, plus `C_MS`
for each, plus a constant (R205), and `C_ISR` for each INC step outside too, as every INC step inside a delay lengthens it
(R135, R199, log entry 20). -/
def millisCycles (t : Timing) (c : Cfg) (js : List Nat) (outside : Nat) : Nat :=
  (js.map (microsCycles t c 1000)).sum + js.length * t.cMs + t.cBase + outside * t.cIsr

/-- `j` is `j*(us)`: the least number of INC steps that is at least the number of whole overflow periods the delay then
lasts (R206). -/
def expectedInterrupts (t : Timing) (c : Cfg) (us : BitVec 16) (j : Nat) : Prop :=
  microsCycles t c us j / overflowPeriod c ≤ j ∧ ∀ k < j, k < microsCycles t c us k / overflowPeriod c

/-- The never-under-delay constraint (R206), for the constant set that `DCAL` names. -/
def neverUnderDelays (t : Timing) (c : Cfg) : Prop :=
  if c.dcal then ∀ us : BitVec 16, ∀ j, expectedInterrupts t c us j → us.toNat * c.fcpu ≤ microsCycles t c us j * 1000000
  else ∀ us : BitVec 16, us.toNat * c.fcpu ≤ microsCycles t c us 0 * 1000000

/-- R15 (c): for one frequency the overhead constant of the interrupt-calibrated set is greater than that of the
interrupt-oblivious set. An obligation on whoever produces the two sets. DESIGN CHOICE (log entry 18): the spec does not
say whether "one frequency" is `FCPU` alone or the pair `(FCPU, PRESC)`; the model compares sets of one pair. -/
def overheadRaised (oblivious calibrated : Cfg) : Prop :=
  oblivious.dcal = false → calibrated.dcal = true →
    (oblivious.fcpu, oblivious.presc) = (calibrated.fcpu, calibrated.presc) → oblivious.ovh < calibrated.ovh

/-- Seconds until `OVRF` wraps: `2^32 * 256 * PRESC / FCPU` (R207, informative). -/
def counterWrapSeconds (c : Cfg) : ℚ := 2 ^ 32 * (256 * c.presc) / c.fcpu

end Sys2Proof.Machine
end

