-- ==== Sys2Proof/Safety.lean ====
section
/-! DEFINITION. What the statements about the machine are written in: the invariant of spec 10_state.md R38, runs under a
written-out schedule, the kinds of schedule the rules speak of, runs of a program and their end (70_reset_and_hazards.md
R208), and the fairness that completion rests on (R204). -/

namespace Sys2Proof.Machine

/-- The last phase of a command (R30). -/
def lastPhase : Instr → Nat
  | .nop => 0
  | .rdst => 0
  | .ieget => 0
  | .ieset _ => 0
  | .rdb0 => 0
  | .rdb1 => 0
  | .rdb2 => 0
  | .rdb3 => 0
  | .rdms => 5
  | .rdus => 5
  | .rlms _ => 0
  | .rlus _ => 0
  | .dlyus _ => 1
  | .dlyms _ => 2

/-- `OPC` is `RDMS` or `RDUS`: the command in progress is a masked read (R113). -/
abbrev isMaskedRead (s : State) : Prop := s.opc = 0x20 ∨ s.opc = 0x21

/-- The invariant: I-1 to I-4 of R38 with what R25 to R28 and R113 say of the latches. The fields after I-4 make I-3's
consequence, the torn-free snapshot, part of what every step keeps. -/
structure Inv (s : State) : Prop where
  /-- I-1: `BUSY = 0` implies `PH = 0` -/
  idle : s.busy = false → s.ph = 0
  /-- I-2: while busy, `OPC` and `ARG` hold a legal command word of this build and `PH` is in that command's range -/
  legal : s.busy = true → ∃ i, decode (s.opc ++ s.arg) = .ok i ∧ i.presentIn s.cfg.tben = true ∧ s.ph.toNat ≤ lastPhase i
  /-- I-3: a masked read past phase 0 holds `IE = 0` -/
  masked : s.busy = true → isMaskedRead s → 1 ≤ s.ph.toNat → s.ie = false
  /-- I-4: with `TBEN = 0` the counter is 0 and nothing is pending -/
  noTimebase : s.cfg.tben = false → s.ovrf = 0 ∧ s.ovp = false
  /-- R62, R113: the bytes copied so far are those of `OVRF` -/
  snapshot : s.busy = true → isMaskedRead s → 1 ≤ s.ph.toNat → ∀ k : Fin 4, k.val + 1 < s.ph.toNat →
    byteOf s.snap k = byteOf s.ovrf k
  /-- R131, R132: a `DLYUS` in its loop was asked for more than `MIN` and has at most `Iters(ARG)` iterations to go -/
  micros : s.busy = true → s.opc = 0x30 → s.ph = 1 →
    s.cfg.min < argMicros s ∧ s.iter.toNat ≤ (s.cfg.iters (argMicros s)).toNat
  /-- R134: a `DLYMS` past phase 0 has at most `ARG` milliseconds to go, and in the loop fewer, with at most
  `Iters(1000)` iterations -/
  millis : s.busy = true → s.opc = 0x31 →
    (s.ph = 1 → s.msrem.toNat ≤ s.arg.toNat) ∧
    (s.ph = 2 → s.msrem.toNat < s.arg.toNat ∧ s.cfg.min.toNat < 1000 ∧ s.iter.toNat ≤ (s.cfg.iters 1000).toNat)

/-- One step of the kind `m`: the environment's next move is `m`, and no other is written out. -/
def stepWith (m : Move) (s : State) : Result := step { s with moves := [m] }

/-- A run: one step for each move of the schedule, in order, as far as the machine goes on. -/
def runMoves : List Move → State → Result
  | [], s => .next s
  | m :: ms, s =>
    match stepWith m s with
    | .next t => runMoves ms t
    | .fault e => .fault e
    | .refused e => .refused e

/-- The responses a run emits, in order (R70, R208). -/
def responses : List Move → State → List RespWord
  | [], _ => []
  | m :: ms, s =>
    match stepWith m s with
    | .next t => t.resp.toList ++ responses ms t
    | .fault _ => []
    | .refused _ => []

/-- How many turns of a run are INC steps: turns of the interrupt agent in which INC is enabled (R91, R100). -/
def incSteps : List Move → State → Nat
  | [], _ => 0
  | m :: ms, s =>
    match stepWith m s with
    | .next t => (if m = .inc ∧ incEnabled s = true then 1 else 0) + incSteps ms t
    | .fault _ => 0
    | .refused _ => 0

/-- A schedule in which the sequencer runs and only overflow events and the interrupt agent come between: no new command
and no RESET (R135). -/
def undisturbed (ms : List Move) : Prop := ∀ m ∈ ms, m = .seq ∨ m = .ev ∨ m = .inc

/-- A schedule of overflow events and turns of the interrupt agent alone. -/
def interruptsOnly (ms : List Move) : Prop := ∀ m ∈ ms, m = .ev ∨ m = .inc

/-- The command that reads byte `k` of the counter (R95 to R98). -/
def readCommand (k : Fin 4) : Instr :=
  match k.val with
  | 0 => .rdb0
  | 1 => .rdb1
  | 2 => .rdb2
  | _ => .rdb3

/-- A command of one phase: ISSUE, then the SEQ step, with `gap` before it and `after` behind it. -/
def commandMoves (i : Instr) (gap after : List Move) : List Move := .issue (encode i) :: gap ++ .seq :: after

/-- The host reads byte `k`. -/
def readMoves (k : Fin 4) (gap after : List Move) : List Move := commandMoves (readCommand k) gap after

/-- EventSpacing (R93): between any two consecutive EV steps of the run there is an INC step. -/
def eventSpacing (ms : List Move) (s : State) : Prop :=
  ∀ before between after, ms = before ++ .ev :: between ++ .ev :: after → Move.ev ∉ between →
    ∀ u, runMoves (before ++ [.ev]) s = .next u → 0 < incSteps between u

/-! ### Programs (R208) -/

/-- The command words that a schedule issues, in order. -/
def issuedWords (ms : List Move) : List CmdWord :=
  ms.filterMap (fun m => match m with
    | .issue w => some w
    | .ev => none
    | .inc => none
    | .seq => none
    | .reset => none)

/-- A run of the program `ws` (R208): the schedule issues the words in order, each after the response to the one before,
and no RESET falls into it (log entry 19). DESIGN CHOICE (log entry 21): the spec does not say from which state a
run starts; it starts with no command in progress, so every response in it is one to a word of the program. -/
structure ProgramRun (ws : List CmdWord) (ms : List Move) (s t : State) : Prop where
  idle : s.busy = false
  runs : runMoves ms s = .next t
  words : issuedWords ms = ws
  inOrder : ∀ before w after, ms = before ++ .issue w :: after →
    (responses before s).length = (issuedWords before).length
  noReset : Move.reset ∉ ms

/-- The run has ended: the response to the last word has been emitted (R208). -/
abbrev ProgramEnded (ws : List CmdWord) (ms : List Move) (s : State) : Prop := (responses ms s).length = ws.length

/-! ### Fairness (R204) -/

/-- The result of the first `n` moves of an endless schedule. -/
def runUntil (σ : Nat → Move) (s : State) (n : Nat) : Result := runMoves ((List.range n).map σ) s

/-- Weak fairness of SEQ: from no point on is `BUSY = 1` for ever without a SEQ step (R204, log entry 12). -/
def fairSeq (σ : Nat → Move) (s : State) : Prop :=
  ∀ n, (∀ m, n ≤ m → ∃ t, runUntil σ s m = .next t ∧ t.busy = true) → ∃ m, n ≤ m ∧ σ m = .seq

/-- Weak fairness of INC: from no point on is INC enabled for ever without an INC step (R204, log entry 12). -/
def fairInc (σ : Nat → Move) (s : State) : Prop :=
  ∀ n, (∀ m, n ≤ m → ∃ t, runUntil σ s m = .next t ∧ incEnabled t = true) → ∃ m, n ≤ m ∧ σ m = .inc

/-- Two states that agree on everything but `IE`, `OVP`, `OVRF` and `FAULT`, which a delay neither reads nor writes
(R132, R134). -/
def agreeOffCounter (s t : State) : Prop := { s with ie := t.ie, ovp := t.ovp, ovrf := t.ovrf, fault := t.fault } = t

end Sys2Proof.Machine
end

