-- ==== Sys2Proof/Certificates/Slice0/Obligations.lean ====
section
/-! DEFINITION. The statements for the provers. Rules R<n> are those of spec/; "log entry <n>" is notes/assumptions/<n>.md. -/

open Sys2Proof Sys2Proof.Machine

/-! ### Reset and the invariant -/

/-- R190, R191: a RESET step, from any state and with any command in progress, leaves all twelve registers 0 and emits no
response; the configuration is kept. -/
def Obligations.ResetStepClearsTwelveRegisters : Prop :=
  ∀ s : State, s.nextMove = .reset →
    step s = .next
      { s.afterTurn with
        ovrf := 0, ovp := false, ie := false, iesave := false, snap := 0, arg := 0, iter := 0, msrem := 0,
        busy := false, opc := 0, ph := 0, fault := false } ∧
      s.afterTurn.resp = none ∧ s.afterTurn.cfg = s.cfg

/-- R37: the state after reset has all twelve registers 0, and it satisfies the invariant. -/
def Obligations.ResetStateMeetsInvariant : Prop :=
  (State.reset.ovrf = 0 ∧ State.reset.ovp = false ∧ State.reset.ie = false ∧ State.reset.iesave = false ∧
    State.reset.snap = 0 ∧ State.reset.arg = 0 ∧ State.reset.iter = 0 ∧ State.reset.msrem = 0 ∧
    State.reset.busy = false ∧ State.reset.opc = 0 ∧ State.reset.ph = 0 ∧ State.reset.fault = false) ∧
  State.reset.cfg.WF ∧ Inv State.reset

/-- R38, with the fields the model adds to it (log entry 17): every step from a state of the invariant, whatever the
environment chooses, leads to a state of it. Turns without a step count too, and pass by the model's choice (log
entry 7). -/
def Obligations.EveryStepKeepsInvariant : Prop := ∀ s t : State, Inv s → step s = .next t → Inv t

/-- R38, U12: in a state of the invariant no step faults and none is refused. For the moves the spec gives no step there (an
ISSUE move while busy, which U9 refuses, a SEQ turn while idle, a turn of the interrupt agent with INC disabled) that the
turn passes to a next state is the model's choice (log entry 7). -/
def Obligations.InvariantStatesNeverStop : Prop := ∀ s : State, Inv s → ∃ t, step s = .next t

/-- U12: a busy sequencer with an unassigned opcode, with a command the build does not have, or with a phase past the
command's last has no step: the turn stops by name (log entry 9). -/
def Obligations.SequencerStopsExactlyInStuckStates : Prop :=
  (∀ s : State, s.nextMove = .seq → s.busy = true → instrOfOpc s.opc s.arg = none → step s = .fault .stuckOpcode) ∧
  (∀ (s : State) (i : Instr), s.nextMove = .seq → s.busy = true → instrOfOpc s.opc s.arg = some i →
    i.presentIn s.cfg.tben = false → step s = .fault .stuckAbsent) ∧
  (∀ (s : State) (i : Instr), s.nextMove = .seq → s.busy = true → instrOfOpc s.opc s.arg = some i →
    i.presentIn s.cfg.tben = true → lastPhase i < s.ph.toNat → step s = .fault .stuckPhase) ∧
  (∀ (s : State) (i : Instr), s.nextMove = .seq → s.busy = true → instrOfOpc s.opc s.arg = some i →
    i.presentIn s.cfg.tben = true → s.ph.toNat ≤ lastPhase i → ∃ t, step s = .next t)

/-- R10, R176: the build-time check refuses exactly the ill-formed records and builds the record it was given; a state is a
state of a machine so built. -/
def Obligations.IllFormedRecordsAreNotBuilt : Prop :=
  (∀ c : Cfg, c.elaborate = none ↔ ¬c.WF) ∧
  (∀ (c : Cfg) (b : Build), c.elaborate = some b → b.cfg = c) ∧
  (∀ s : State, ∃ b : Build, s.cfg.elaborate = some b ∧ b.cfg = s.cfg)

/-- R5, R33: no step changes the configuration. -/
def Obligations.NoStepChangesConfiguration : Prop := ∀ s t : State, step s = .next t → t.cfg = s.cfg

/-! ### The kinds of step -/

/-- R36: which step writes which register, and that a register not listed keeps its value. `s.afterTurn` is `s` with the
move used up and the response pulse over; `resp` is the response port, no register. That an ISSUE move while busy and a
SEQ move while idle change nothing is the model's choice (log entry 7): the spec gives them no step. -/
def Obligations.StepsWriteOnlyListedRegisters : Prop :=
  ∀ s t : State, step s = .next t →
    match s.nextMove with
    | .ev => t = { s.afterTurn with ovp := t.ovp }
    | .inc => t = { s.afterTurn with ovrf := t.ovrf, ovp := t.ovp }
    | .issue w =>
      if s.busy = true then t = s.afterTurn
      else
        ((∃ i, decode w = .ok i ∧ i.presentIn s.cfg.tben = true) →
          t = { s.afterTurn with busy := t.busy, opc := t.opc, arg := t.arg, ph := t.ph }) ∧
        (¬(∃ i, decode w = .ok i ∧ i.presentIn s.cfg.tben = true) →
          t = { s.afterTurn with fault := t.fault, resp := t.resp })
    | .seq =>
      if s.busy = false then t = s.afterTurn
      else if s.opc = 0x03 then t = { s.afterTurn with ie := t.ie, busy := t.busy, ph := t.ph, resp := t.resp }
      else if s.opc = 0x20 ∨ s.opc = 0x21 then
        t = { s.afterTurn with
              ie := t.ie, iesave := t.iesave, snap := t.snap, busy := t.busy, ph := t.ph, resp := t.resp }
      else if s.opc = 0x30 then t = { s.afterTurn with iter := t.iter, busy := t.busy, ph := t.ph, resp := t.resp }
      else if s.opc = 0x31 then
        t = { s.afterTurn with msrem := t.msrem, iter := t.iter, busy := t.busy, ph := t.ph, resp := t.resp }
      else t = { s.afterTurn with busy := t.busy, ph := t.ph, resp := t.resp }
    | .reset => t.cfg = s.cfg ∧ t.resp = none ∧ t.moves = s.afterTurn.moves ∧ t.freeTurns = s.afterTurn.freeTurns

/-- R52: no step but a taken interrupt and RESET changes any byte of the counter byte space, and a taken interrupt changes
the whole counter at once, by one. -/
def Obligations.OnlyInterruptOrResetWritesCounterBytes : Prop :=
  ∀ s t : State, step s = .next t →
    (∀ k : Fin 4, memRead t k = memRead s k) ∨
    (s.nextMove = .inc ∧ s.cfg.tben = true ∧ s.ie = true ∧ s.ovp = true ∧ t.ovrf.toNat = (s.ovrf.toNat + 1) % 2 ^ 32) ∨
    (s.nextMove = .reset ∧ ∀ k : Fin 4, memRead t k = 0)

/-- R90, R94: EV is always possible, sets `OVP` exactly when the timebase is enabled, and changes nothing else; R93: an
event that finds `OVP` set leaves it set and is lost. -/
def Obligations.EventSetsPendingWhenTimebaseEnabled : Prop :=
  ∀ s : State, s.nextMove = .ev →
    (s.cfg.tben = true → step s = .next { s.afterTurn with ovp := true }) ∧
    (s.cfg.tben = false → step s = .next s.afterTurn) ∧
    (s.ovp = true → step s = .next s.afterTurn) ∧ s.afterTurn.resp = none

/-- R91, R92: an enabled INC adds one to the counter modulo 2^32, clears `OVP`, and changes nothing else; from
0xFFFF_FFFF it gives 0. It is enabled exactly with the timebase, `IE` and `OVP`: otherwise a turn of the interrupt agent
does none of it. -/
def Obligations.IncrementServicesPendingEvent : Prop :=
  ∀ s : State, s.nextMove = .inc →
    (s.cfg.tben = true → s.ie = true → s.ovp = true →
      ∃ v : Word, step s = .next { s.afterTurn with ovrf := v, ovp := false } ∧
        v.toNat = (s.ovrf.toNat + 1) % 2 ^ 32 ∧ (s.ovrf = 0xFFFFFFFF → v = 0)) ∧
    (¬(s.cfg.tben = true ∧ s.ie = true ∧ s.ovp = true) → ∀ t, step s = .next t → t.ovrf = s.ovrf ∧ t.ovp = s.ovp) ∧
    s.afterTurn.resp = none

/-- R166, R167: masking delays an interrupt and does not cancel it: no step but a taken interrupt and RESET clears `OVP`, and
no step but EV sets it. -/
def Obligations.PendingEventWaitsForService : Prop :=
  ∀ s t : State, step s = .next t → s.nextMove ≠ .reset →
    (s.ovp = true → t.ovp = false → s.nextMove = .inc ∧ s.cfg.tben = true ∧ s.ie = true ∧ t.ovrf = s.ovrf + 1) ∧
    (s.ovp = false → t.ovp = true → s.nextMove = .ev ∧ s.cfg.tben = true)

/-- The model's choice (log entry 7) where R79, R91 and R203 give a move no step: while a command is in progress a presented
word is not sampled, an idle sequencer does nothing, and a disabled INC does nothing; the turn passes with nothing
changed. -/
def Obligations.TurnsWithoutStepChangeNothing : Prop :=
  (∀ (s : State) (w : CmdWord), s.nextMove = .issue w → s.busy = true → step s = .next s.afterTurn) ∧
  (∀ s : State, s.nextMove = .seq → s.busy = false → step s = .next s.afterTurn) ∧
  (∀ s : State, s.nextMove = .inc → ¬(s.cfg.tben = true ∧ s.ie = true ∧ s.ovp = true) → step s = .next s.afterTurn)

/-- A step runs the decoded command (R35, R74): an ISSUE turn of an idle TBU runs the command its word decodes to, and a
SEQ turn of a busy one runs the command `OPC` names, both on the state whose move is used up. -/
def Obligations.StepRunsDecodedCommand : Prop :=
  (∀ (s : State) (w : CmdWord) (i : Instr), s.nextMove = .issue w → s.busy = false → decode w = .ok i →
    step s = exec i s.afterTurn) ∧
  (∀ (s : State) (i : Instr), s.nextMove = .seq → s.busy = true → instrOfOpc s.opc s.arg = some i →
    step s = exec i s.afterTurn) ∧
  (∀ (s : State) (nbits w : Nat) (i : Instr), decodeTableWord nbits w = some i →
    step (s.withFetchWord nbits w) = exec i { s with busy := false, ph := 0, resp := none })

/-- R26, R29, R74: ISSUE of a word that decodes to a command of this build latches exactly that word, so the SEQ turns
that follow run that command. -/
def Obligations.IssueLatchesTheWordItRuns : Prop :=
  ∀ (s : State) (w : CmdWord) (i : Instr), s.nextMove = .issue w → s.busy = false → decode w = .ok i →
    i.presentIn s.cfg.tben = true →
    ∃ t, step s = .next t ∧ t.busy = true ∧ t.ph = 0 ∧ t.resp = none ∧ t.opc ++ t.arg = w ∧
      t.arg = i.operand ∧ instrOfOpc t.opc t.arg = some i

/-- R70: a step emits a response exactly when it ends a command: the SEQ step that clears `BUSY`, or the ISSUE step of a
refused word. R78: the status is then OK, respectively ILLEGAL or ABSENT with value 0; the code 3 is never produced. -/
def Obligations.ResponsesEndCommands : Prop :=
  ∀ s t : State, step s = .next t →
    (t.resp.isSome = true ↔
      (s.nextMove = .seq ∧ s.busy = true ∧ t.busy = false) ∨
      (∃ w, s.nextMove = .issue w ∧ s.busy = false ∧ t.busy = false)) ∧
    ∀ r, t.resp = some r →
      (s.nextMove = .seq → respStatus r = 0) ∧
      (s.nextMove ≠ .seq → (respStatus r = 1 ∨ respStatus r = 2) ∧ respValue r = 0)

/-- R78: the status stands in bits 33:32 of a response word and the value in bits 31:0; OK is 0, ILLEGAL 1, ABSENT 2. -/
def Obligations.ResponseWordLayout : Prop :=
  (∀ (st : Status) (v : Word), (respWord st v).toNat = st.code.toNat * 2 ^ 32 + v.toNat ∧
    respStatus (respWord st v) = st.code ∧ respValue (respWord st v) = v) ∧
  Status.ok.code = 0 ∧ Status.illegal.code = 1 ∧ Status.absent.code = 2

/-! ### Decoding -/

/-- R71, R72: decoding the word of a command gives the command back, with every operand at every value. -/
def Obligations.DecodeOfEncodeIsIdentity : Prop := ∀ i : Instr, decode (encode i) = .ok i

/-- R71, R75: a word that decodes to a command is that command's one word: no two words mean the same, and no reserved
bit is dropped. -/
def Obligations.EncodeOfDecodeIsIdentity : Prop := ∀ (w : CmdWord) (i : Instr), decode w = .ok i → encode i = w

/-- R73, R74: a word decodes to a command exactly when it selects a row of the opcode map, the row is then the only one it
selects, and opcode, format and presence are that row's. -/
def Obligations.DecoderAgreesWithOpcodeTable : Prop :=
  (∀ w : CmdWord, (∃ i, decode w = .ok i) ↔ ∃ r ∈ opcodeTable, w &&& r.mask = r.pattern) ∧
  (∀ (w : CmdWord) (i : Instr) (r : Row), decode w = .ok i → r ∈ opcodeTable → w &&& r.mask = r.pattern →
    i.opc = r.opc ∧ i.format = r.format ∧ i.needsTben = r.needsTben ∧ opcField w = r.opc) ∧
  (∀ (w : CmdWord) (r q : Row), r ∈ opcodeTable → q ∈ opcodeTable → w &&& r.mask = r.pattern →
    w &&& q.mask = q.pattern → r = q)

/-- R75: the illegal words are those with an opcode in 0x04..0x0F, 0x14..0x1F, 0x24..0x2F or 0x32..0xFF, and those with an
assigned opcode and a non-zero reserved operand bit; the decoder says which. -/
def Obligations.IllegalEncodingsAreRejectedByName : Prop :=
  (∀ w : CmdWord, decode w = .error .unassignedOpcode ↔
    ((0x04 ≤ opcField w ∧ opcField w ≤ 0x0F) ∨ (0x14 ≤ opcField w ∧ opcField w ≤ 0x1F) ∨
      (0x24 ≤ opcField w ∧ opcField w ≤ 0x2F) ∨ (0x32 ≤ opcField w))) ∧
  (∀ w : CmdWord, decode w = .error .reservedOperandBits ↔
    ((opcField w ∈ [0x00, 0x01, 0x02, 0x10, 0x11, 0x12, 0x13, 0x20, 0x21] ∧ immField w ≠ 0) ∨
      (opcField w = 0x03 ∧ 2 ≤ (immField w).toNat) ∨ (opcField w = 0x30 ∧ 2 ^ 16 ≤ (immField w).toNat)))

/-- The 28 words of the table in spec 95_test_vectors.md section 2.1, row by row: sixteen decode to the commands they stand
for, and twelve are rejected, each for the reason the table gives. -/
def Obligations.PrintedWordsDecode : Prop :=
  decode 0x0000000000 = .ok .nop ∧ decode 0x0000000001 = .error .reservedOperandBits ∧
  decode 0x0100000000 = .ok .rdst ∧ decode 0x0200000000 = .ok .ieget ∧ decode 0x0300000000 = .ok (.ieset 0) ∧
  decode 0x0300000001 = .ok (.ieset 1) ∧ decode 0x0300000002 = .error .reservedOperandBits ∧
  decode 0x0380000001 = .error .reservedOperandBits ∧ decode 0x0400000000 = .error .unassignedOpcode ∧
  decode 0x0F00000000 = .error .unassignedOpcode ∧ decode 0x1000000000 = .ok .rdb0 ∧ decode 0x1300000000 = .ok .rdb3 ∧
  decode 0x1300000100 = .error .reservedOperandBits ∧ decode 0x1400000000 = .error .unassignedOpcode ∧
  decode 0x2000000000 = .ok .rdms ∧ decode 0x2100000000 = .ok .rdus ∧
  decode 0x2100000001 = .error .reservedOperandBits ∧ decode 0x22000003E8 = .ok (.rlms 1000) ∧
  decode 0x22FFFFFFFF = .ok (.rlms 4294967295) ∧ decode 0x23000F4240 = .ok (.rlus 1000000) ∧
  decode 0x2400000000 = .error .unassignedOpcode ∧ decode 0x3000000064 = .ok (.dlyus 100) ∧
  decode 0x300000FFFF = .ok (.dlyus 65535) ∧ decode 0x3000010000 = .error .reservedOperandBits ∧
  decode 0x3100000003 = .ok (.dlyms 3) ∧ decode 0x31FFFFFFFF = .ok (.dlyms 4294967295) ∧
  decode 0x3200000000 = .error .unassignedOpcode ∧ decode 0xFFFFFFFFFF = .error .unassignedOpcode

/-! ### Faults -/

/-- R162: `Illegal` is raised by ISSUE of an idle TBU exactly when no row of R73 matches the word; every command but `RLMS`,
`RLUS` and `DLYMS` has a near miss, a word with its opcode that is `Illegal`. -/
def Obligations.IllegalRaisedExactlyWithoutRow : Prop :=
  (∀ (s : State) (w : CmdWord), s.nextMove = .issue w → s.busy = false →
    ((∀ r ∈ opcodeTable, w &&& r.mask ≠ r.pattern) ↔
      step s = .next { s.afterTurn with fault := true, resp := some (respWord .illegal 0) })) ∧
  (∀ i : Instr, (∃ w, opcField w = i.opc ∧ ∀ r ∈ opcodeTable, w &&& r.mask ≠ r.pattern) ↔
    i.opc ≠ 0x22 ∧ i.opc ≠ 0x23 ∧ i.opc ≠ 0x31)

/-- R163: `Absent` is raised by ISSUE of an idle TBU exactly when a row matches, the row needs `TBEN`, and `TBEN = 0`; with
`TBEN = 1` it is never raised. -/
def Obligations.AbsentRaisedExactlyWithoutTimebase : Prop :=
  ∀ (s : State) (w : CmdWord), s.nextMove = .issue w → s.busy = false →
    (((∃ r ∈ opcodeTable, w &&& r.mask = r.pattern ∧ r.needsTben = true) ∧ s.cfg.tben = false) ↔
      step s = .next { s.afterTurn with fault := true, resp := some (respWord .absent 0) }) ∧
    (s.cfg.tben = true → ∀ t, step s = .next t → t.resp ≠ some (respWord .absent 0))

/-- R31: no step but RESET clears `FAULT`, and no step but the ISSUE of a refused word sets it. -/
def Obligations.FaultFlagIsSticky : Prop :=
  ∀ s t : State, step s = .next t → s.nextMove ≠ .reset →
    (s.fault = true → t.fault = true) ∧
    (s.fault = false → t.fault = true →
      ∃ w, s.nextMove = .issue w ∧ s.busy = false ∧ t.busy = false ∧
        (t.resp = some (respWord .illegal 0) ∨ t.resp = some (respWord .absent 0)))

/-! ### Control commands -/

/-- R150: the word of `NOP`; ISSUE accepts it in every build; a non-zero operand bit is illegal; its one phase responds
`(OK, 0)` and changes nothing else. -/
def Obligations.NopOnlyResponds : Prop :=
  encode .nop = 0x0000000000 ∧
  (∀ w : CmdWord, opcField w = 0x00 → immField w ≠ 0 → decode w = .error .reservedOperandBits) ∧
  (∀ s : State, s.busy = false → exec .nop s = .next { s with busy := true, opc := 0x00, arg := 0, ph := 0 }) ∧
  (∀ s : State, s.busy = true → s.ph = 0 →
    exec .nop s = .next { s with resp := some (respWord .ok 0), busy := false, ph := 0 })

/-- R151 (R32): `RDST` responds with bit 0 `IE`, bit 1 `OVP`, bit 2 `FAULT`, bit 3 `TBEN`, bit 4 `DCAL` and zeros above, of
the state before the step, and clears nothing. -/
def Obligations.RdstReadsStatus : Prop :=
  encode .rdst = 0x0100000000 ∧
  (∀ w : CmdWord, opcField w = 0x01 → immField w ≠ 0 → decode w = .error .reservedOperandBits) ∧
  (∀ s : State, s.busy = false → exec .rdst s = .next { s with busy := true, opc := 0x01, arg := 0, ph := 0 }) ∧
  (∀ s : State, s.busy = true → s.ph = 0 →
    ∃ v : Word, exec .rdst s = .next { s with resp := some (respWord .ok v), busy := false, ph := 0 } ∧
      v.getLsbD 0 = s.ie ∧ v.getLsbD 1 = s.ovp ∧ v.getLsbD 2 = s.fault ∧ v.getLsbD 3 = s.cfg.tben ∧
      v.getLsbD 4 = s.cfg.dcal ∧ v.toNat < 2 ^ 5)

/-- R152: `IEGET` responds with 1 when `IE` is 1 and 0 when it is 0, and changes nothing else. -/
def Obligations.IegetReturnsInterruptEnable : Prop :=
  encode .ieget = 0x0200000000 ∧
  (∀ w : CmdWord, opcField w = 0x02 → immField w ≠ 0 → decode w = .error .reservedOperandBits) ∧
  (∀ s : State, s.busy = false → exec .ieget s = .next { s with busy := true, opc := 0x02, arg := 0, ph := 0 }) ∧
  (∀ s : State, s.busy = true → s.ph = 0 →
    exec .ieget s = .next { s with resp := some (respWord .ok (if s.ie = true then 1 else 0)), busy := false, ph := 0 })

/-- R153: `IESET` writes `IE` with bit 0 of `ARG`, which ISSUE set to its operand, responds `(OK, 0)`, and changes nothing
else; both operands are accepted in every build, and a non-zero bit above bit 0 is illegal. -/
def Obligations.IesetWritesInterruptEnable : Prop :=
  (∀ b : BitVec 1, encode (.ieset b) = 0x0300000000 + b.setWidth 40) ∧
  (∀ w : CmdWord, opcField w = 0x03 → immField w >>> 1 ≠ 0 → decode w = .error .reservedOperandBits) ∧
  (∀ (s : State) (b : BitVec 1), s.busy = false →
    exec (.ieset b) s = .next { s with busy := true, opc := 0x03, arg := b.setWidth 32, ph := 0 }) ∧
  (∀ (s : State) (b : BitVec 1), s.busy = true → s.ph = 0 → s.arg = b.setWidth 32 →
    exec (.ieset b) s =
      .next { s with ie := (b == 1#1), resp := some (respWord .ok 0), busy := false, ph := 0 })

/-! ### Counter bytes -/

/-- R95 to R98: `RDBn` responds with byte `n` of `OVRF` at its SEQ step, the byte that `n` divisions by 256 bring to the
bottom, and changes nothing else; it is absent with `TBEN = 0`, and a non-zero operand bit is illegal. -/
def Obligations.ByteReadsReturnCounterBytes : Prop :=
  (∀ k : Fin 4, encode (readCommand k) = 0x1000000000 + BitVec.ofNat 40 (k.val * 2 ^ 32)) ∧
  (∀ (k : Fin 4) (w : CmdWord), opcField w = 0x10 + BitVec.ofNat 8 k.val → immField w ≠ 0 →
    decode w = .error .reservedOperandBits) ∧
  (∀ (k : Fin 4) (s : State), s.busy = false → s.cfg.tben = true →
    exec (readCommand k) s = .next { s with busy := true, opc := 0x10 + BitVec.ofNat 8 k.val, arg := 0, ph := 0 }) ∧
  (∀ (k : Fin 4) (s : State), s.busy = false → s.cfg.tben = false →
    exec (readCommand k) s = .next { s with fault := true, resp := some (respWord .absent 0) }) ∧
  (∀ (k : Fin 4) (s : State), s.busy = true → s.cfg.tben = true → s.ph = 0 →
    ∃ v : Word, exec (readCommand k) s = .next { s with resp := some (respWord .ok v), busy := false, ph := 0 } ∧
      v.toNat = s.ovrf.toNat / 256 ^ k.val % 256)

/-- R59: the negative control. With `IE = 1` and an increment forced before the last of four byte reads, high byte first,
the host assembles 0x100 from a counter that stood at 0x1FF and then at 0x200; low byte first, it assembles 0x1FF from
0xFF and 0x100. Every response is OK. -/
def Obligations.UnmaskedReadsCanTear : Prop :=
  ∀ s : State, s.busy = false → s.cfg.tben = true → s.ie = true →
    (s.ovrf = 0x1FF →
      responses (readMoves 3 [] [] ++ readMoves 2 [] [] ++ readMoves 1 [] [.ev, .inc] ++ readMoves 0 [] []) s =
        [respWord .ok 0, respWord .ok 0, respWord .ok 1, respWord .ok 0]) ∧
    assembleBytes 0 1 0 0 = 0x100 ∧
    (s.ovrf = 0xFF →
      responses (readMoves 0 [] [.ev, .inc] ++ readMoves 1 [] [] ++ readMoves 2 [] [] ++ readMoves 3 [] []) s =
        [respWord .ok 0xFF, respWord .ok 1, respWord .ok 0, respWord .ok 0]) ∧
    assembleBytes 0xFF 1 0 0 = 0x1FF

/-- R62: with `IE = 0` at the first read, any number of byte reads in any order, with any overflow events and turns of the
interrupt agent between and inside them, return bytes of one value, the counter's throughout; and the four of them
assemble to it. The turns of the interrupt agent find INC disabled, and pass by the model's choice (log entry 7). -/
def Obligations.MaskedByteReadsAreTornFree : Prop :=
  (∀ (s : State) (reads : List (Fin 4 × List Move × List Move)), s.busy = false → s.cfg.tben = true → s.ie = false →
    (∀ r ∈ reads, interruptsOnly r.2.1 ∧ interruptsOnly r.2.2) →
    responses (reads.flatMap (fun r => readMoves r.1 r.2.1 r.2.2)) s =
        reads.map (fun r => respWord .ok ((byteOf s.ovrf r.1).setWidth 32)) ∧
      ∃ t, runMoves (reads.flatMap (fun r => readMoves r.1 r.2.1 r.2.2)) s = .next t ∧ t.ovrf = s.ovrf ∧ t.ie = false) ∧
  (∀ v : Word, assembleBytes ((byteOf v 0).setWidth 32) ((byteOf v 1).setWidth 32) ((byteOf v 2).setWidth 32)
    ((byteOf v 3).setWidth 32) = v)

/-- R61, R82: the whole protocol around byte reads in any order. `IEGET` returns the interrupt enable that was found,
`IESET #0` masks, the reads return bytes of the counter as it stands once masked, and `IESET` of the value found restores
it, with the counter unchanged since the masking. Overflow events and turns of the interrupt agent may fall anywhere;
those that find INC disabled pass by the model's choice (log entry 7). The commands are those of `RDOVF`. -/
def Obligations.MaskedReadProtocolRestoresEnable : Prop :=
  (∀ (s : State) (b : BitVec 1) (g0 a0 g1 a1 g2 : List Move) (reads : List (Fin 4 × List Move × List Move)),
    s.busy = false → s.cfg.tben = true → s.ie = (b == 1#1) →
    interruptsOnly g0 → interruptsOnly a0 → interruptsOnly g1 → interruptsOnly a1 → interruptsOnly g2 →
    (∀ r ∈ reads, interruptsOnly r.2.1 ∧ interruptsOnly r.2.2) →
    ∃ u t, runMoves (commandMoves .ieget g0 a0 ++ commandMoves (.ieset 0) g1 a1) s = .next u ∧ u.ie = false ∧
      responses (commandMoves .ieget g0 a0 ++ commandMoves (.ieset 0) g1 a1) s =
        [respWord .ok (b.setWidth 32), respWord .ok 0] ∧
      runMoves (reads.flatMap (fun r => readMoves r.1 r.2.1 r.2.2) ++ commandMoves (.ieset b) g2 []) u = .next t ∧
      responses (reads.flatMap (fun r => readMoves r.1 r.2.1 r.2.2) ++ commandMoves (.ieset b) g2 []) u =
        reads.map (fun r => respWord .ok ((byteOf u.ovrf r.1).setWidth 32)) ++ [respWord .ok 0] ∧
      t.ie = s.ie ∧ t.ovrf = u.ovrf) ∧
  (∀ b : BitVec 1, rdovf b = [.ieget, .ieset 0] ++ [0, 1, 2, 3].map readCommand ++ [.ieset b])

/-- R58 (c), R62, R100 L-5: along a run in which no move is RESET and `IE = 0` in every state a move starts from, the
counter does not change. Moves without a step in it pass by the model's choice (log entry 7). -/
def Obligations.CounterConstantWhileMasked : Prop :=
  ∀ (ms : List Move) (s t : State), Move.reset ∉ ms →
    (∀ n < ms.length, ∀ u, runMoves (ms.take n) s = .next u → u.ie = false) →
    runMoves ms s = .next t → t.ovrf = s.ovrf

/-- R100 L-2 and L-4: along a run without RESET the counter advances by the number of INC steps, modulo 2^32, and the INC
steps, with the event still pending, never exceed the events, with the event pending at the start. Only enabled
turns of the interrupt agent count; the others pass by the model's choice (log entry 7). -/
def Obligations.CounterCountsServicedEvents : Prop :=
  ∀ (ms : List Move) (s t : State), Move.reset ∉ ms → runMoves ms s = .next t →
    t.ovrf = s.ovrf + BitVec.ofNat 32 (incSteps ms s) ∧
    incSteps ms s + t.ovp.toNat ≤ ms.count .ev + s.ovp.toNat

/-- R93, R100 under EventSpacing: with the timebase enabled, along any run without RESET in which an INC step lies between
any two consecutive events, whatever commands are issued and run between them, every event is counted: the INC steps and
the event still pending are the events, and the counter has advanced by the events less the one pending. With interrupts
on, `n` events each serviced at once make such a run, which advances the counter by `n`. Only enabled turns of the
interrupt agent count as INC steps; the others pass by the model's choice (log entry 7). -/
def Obligations.SpacedEventsAreAllCounted : Prop :=
  (∀ (ms : List Move) (s t : State), s.cfg.tben = true → s.ovp = false → Move.reset ∉ ms → eventSpacing ms s →
    runMoves ms s = .next t →
    incSteps ms s + t.ovp.toNat = ms.count .ev ∧
    t.ovrf = s.ovrf + BitVec.ofNat 32 (ms.count .ev - t.ovp.toNat)) ∧
  (∀ (n : Nat) (s : State), s.cfg.tben = true → s.ie = true → s.ovp = false →
    runMoves ((List.replicate n [Move.ev, Move.inc]).flatten) s =
      .next { s with
              ovrf := s.ovrf + BitVec.ofNat 32 n, resp := if n = 0 then s.resp else none,
              moves := if n = 0 then s.moves else [] })

/-! ### The scaler -/

/-- R111, R121: the scaler is the product plus the selected shifts, on natural numbers, reduced once; reduction commutes
with its parts, and with no selected shift it is the product modulo 2^32. -/
def Obligations.ScalerIsProductPlusShifts : Prop :=
  ∀ K S x : Word,
    (scale K S x).toNat =
      (K.toNat * x.toNat +
        ((List.range 32).map (fun a => if 1 ≤ a ∧ S.getLsbD a = true then x.toNat / 2 ^ a else 0)).sum) % 2 ^ 32 ∧
    scale K S x = K * x + BitVec.ofNat 32 (shiftSum S x.toNat) ∧
    (S = 0 → scale K S x = K * x)

/-- R112: the six value laws of the scaler, with `n` the number of set bits of a mask whose bit 0 is clear. V-1: the total
is at most the ratio times `x`, and in a well-formed configuration at most the true ratio times `x`. V-2: it is at least
the ratio times `x` less `n`, strictly when `n > 0`, and equal when `n = 0`. V-3: the same against any ratio `r`. V-4: it
is monotone. V-5: it is 0 at 0. V-6: `Scale` is the total exactly when that is below 2^32. -/
def Obligations.ScalerValueLaws : Prop :=
  (∀ K S x : Word, (scaleTotal K S x : ℚ) ≤ approx K S * x.toNat) ∧
  (∀ (c : Cfg) (x : Word), c.WF → c.tben = true →
    (scaleTotal c.kms c.sms x : ℚ) ≤ c.rMs * x.toNat ∧ (scaleTotal c.kus c.sus x : ℚ) ≤ c.rUs * x.toNat) ∧
  (∀ K S x : Word, approx K S * x.toNat - (shiftAmounts S).length ≤ (scaleTotal K S x : ℚ) ∧
    (0 < (shiftAmounts S).length → approx K S * x.toNat - (shiftAmounts S).length < (scaleTotal K S x : ℚ)) ∧
    ((shiftAmounts S).length = 0 → approx K S * x.toNat = (scaleTotal K S x : ℚ))) ∧
  (∀ (K S x : Word) (r : ℚ),
    r * x.toNat - scaleTotal K S x ≤ (r - approx K S) * x.toNat + (shiftAmounts S).length ∧
    (0 < (shiftAmounts S).length →
      r * x.toNat - scaleTotal K S x < (r - approx K S) * x.toNat + (shiftAmounts S).length)) ∧
  (∀ K S x y : Word, x ≤ y → scaleTotal K S x ≤ scaleTotal K S y) ∧
  (∀ K S : Word, scaleTotal K S 0 = 0) ∧
  (∀ K S x : Word, (scale K S x).toNat = scaleTotal K S x ↔ scaleTotal K S x < 2 ^ 32) ∧
  (∀ S : Word, S.getLsbD 0 = false →
    (shiftAmounts S).length = ((List.range 32).filter (fun a => S.getLsbD a)).length)

/-- R119: of two readings without a wrap, the later is at least the earlier. -/
def Obligations.ReadingsAreMonotone : Prop :=
  ∀ K S v1 v2 : Word, v1 ≤ v2 → scaleTotal K S v2 < 2 ^ 32 → scale K S v1 ≤ scale K S v2

/-- R120: with no correction term and a multiplier equal to the true ratio, a reading has zero error until it wraps. -/
def Obligations.ExactRatioHasNoError : Prop :=
  ∀ (c : Cfg) (x : Word),
    (c.sms = 0 → (c.kms.toNat : ℚ) = c.rMs → (scaleTotal c.kms c.sms x : ℚ) = c.rMs * x.toNat ∧
      (scale c.kms c.sms x).toNat = c.kms.toNat * x.toNat % 2 ^ 32) ∧
    (c.sus = 0 → (c.kus.toNat : ℚ) = c.rUs → (scaleTotal c.kus c.sus x : ℚ) = c.rUs * x.toNat ∧
      (scale c.kus c.sus x).toNat = c.kus.toNat * x.toNat % 2 ^ 32)

/-- R122: in every well-formed configuration for 8 MHz and divisor 64 the millisecond reading at 1000 overflows is at most
2048; with the canonical constants of the loosest tolerance it is 2000. -/
def Obligations.ThousandOverflowsNeverReadFast : Prop :=
  (∀ c : Cfg, c.WF → c.tben = true → c.fcpu = 8000000 → c.presc = 64 → (scale c.kms c.sms 1000).toNat ≤ 2048) ∧
  gen (ratioMs 8000000 64) 1000000 = some (2, 0) ∧ (scale 2 0 1000).toNat = 2000

/-- R116: the correction scaler is the exact product divided by 1_000_000, rounded down; for a numerator of at most
1_000_000 the product is below 2^52 and the result at most `n`; its values at the ends of its range. -/
def Obligations.CorrectionIsFloorOfExactProduct : Prop :=
  ∀ (N : BitVec 20) (n : Word), N.toNat ≤ 1000000 →
    (realTicks N n).toNat = n.toNat * N.toNat / 1000000 ∧ n.toNat * N.toNat < 2 ^ 52 ∧ realTicks N n ≤ n ∧
    realTicks N 0 = 0 ∧ realTicks 1000000 n = n ∧ realTicks 0 n = 0

/-- R123: in a well-formed configuration the device duration that `RLMS` and `RLUS` give for `n` real units never exceeds
the exact count and falls short of it by less than `1 + n / 1_000_000`. -/
def Obligations.CorrectionIsCloseBelowExactCount : Prop :=
  ∀ (c : Cfg) (n : Word), c.WF → c.tben = true →
    ((realTicks c.nms n).toNat : ℚ) ≤ n.toNat * c.aMs / c.rMs ∧
    (n.toNat * c.aMs / c.rMs : ℚ) < (realTicks c.nms n).toNat + (1 + (n.toNat : ℚ) / 1000000) ∧
    ((realTicks c.nus n).toNat : ℚ) ≤ n.toNat * c.aUs / c.rUs ∧
    (n.toNat * c.aUs / c.rUs : ℚ) < (realTicks c.nus n).toNat + (1 + (n.toNat : ℚ) / 1000000)

/-- R117, R118: `RLMS` and `RLUS` respond with the correction of the operand in `ARG` and change nothing else; ISSUE latches
the operand; they are absent with `TBEN = 0`, and no word with their opcode is illegal. -/
def Obligations.CorrectionCommandsScaleOperand : Prop :=
  (∀ n : Word, encode (.rlms n) = 0x2200000000 + n.setWidth 40 ∧ encode (.rlus n) = 0x2300000000 + n.setWidth 40) ∧
  (∀ w : CmdWord, (opcField w = 0x22 → decode w = .ok (.rlms (immField w))) ∧
    (opcField w = 0x23 → decode w = .ok (.rlus (immField w)))) ∧
  (∀ (s : State) (n : Word), s.busy = false → s.cfg.tben = true →
    exec (.rlms n) s = .next { s with busy := true, opc := 0x22, arg := n, ph := 0 } ∧
    exec (.rlus n) s = .next { s with busy := true, opc := 0x23, arg := n, ph := 0 }) ∧
  (∀ (s : State) (n : Word), s.busy = false → s.cfg.tben = false →
    exec (.rlms n) s = .next { s with fault := true, resp := some (respWord .absent 0) } ∧
    exec (.rlus n) s = .next { s with fault := true, resp := some (respWord .absent 0) }) ∧
  (∀ (s : State) (n : Word), s.busy = true → s.cfg.tben = true → s.ph = 0 → s.arg = n →
    exec (.rlms n) s =
      .next { s with resp := some (respWord .ok (realTicks s.cfg.nms n)), busy := false, ph := 0 } ∧
    exec (.rlus n) s =
      .next { s with resp := some (respWord .ok (realTicks s.cfg.nus n)), busy := false, ph := 0 })

/-- R113: the six phases that `RDMS` and `RDUS` share. Phase 0 saves and clears `IE`; phases 1 to 4 copy the counter into
`SNAP` byte by byte, low byte first, leaving its other bytes; phase 5 restores `IE` and responds with the scaled
snapshot. Nothing else changes in any of them. -/
def Obligations.MaskedReadPhases : Prop :=
  ∀ (s : State) (i : Instr) (K S : Word), s.busy = true → s.cfg.tben = true →
    (i = .rdms ∧ K = s.cfg.kms ∧ S = s.cfg.sms ∨ i = .rdus ∧ K = s.cfg.kus ∧ S = s.cfg.sus) →
    (s.ph = 0 → exec i s = .next { s with iesave := s.ie, ie := false, ph := 1 }) ∧
    (∀ k : Fin 4, s.ph.toNat = k.val + 1 →
      ∃ v : Word, exec i s = .next { s with snap := v, ph := BitVec.ofNat 3 (k.val + 2) } ∧
        byteOf v k = memRead s k ∧ ∀ j : Fin 4, j ≠ k → byteOf v j = byteOf s.snap j) ∧
    (s.ph = 5 →
      exec i s = .next { s with ie := s.iesave, resp := some (respWord .ok (scale K S s.snap)), busy := false, ph := 0 })

/-- The words of `RDMS` and `RDUS`, their acceptance with `TBEN = 1`, their absence with `TBEN = 0`, and that a non-zero
operand bit is illegal (R114, R115). -/
def Obligations.ClockReadsAreIssued : Prop :=
  (encode .rdms = 0x2000000000 ∧ encode .rdus = 0x2100000000) ∧
  (∀ w : CmdWord, (opcField w = 0x20 ∨ opcField w = 0x21) → immField w ≠ 0 → decode w = .error .reservedOperandBits) ∧
  (∀ s : State, s.busy = false → s.cfg.tben = true →
    exec .rdms s = .next { s with busy := true, opc := 0x20, arg := 0, ph := 0 } ∧
    exec .rdus s = .next { s with busy := true, opc := 0x21, arg := 0, ph := 0 }) ∧
  (∀ s : State, s.busy = false → s.cfg.tben = false →
    exec .rdms s = .next { s with fault := true, resp := some (respWord .absent 0) } ∧
    exec .rdus s = .next { s with fault := true, resp := some (respWord .absent 0) })

/-- R114, R115 with R62: from phase 0 on, a clock read takes exactly six SEQ steps, with any overflow events and turns of
the interrupt agent between them; it responds with the scaled value that the counter has at phase 0, leaves the counter
and `IE` as they were, and an event that arrived meanwhile is pending. Until the sixth SEQ step it is busy. The turns of
the interrupt agent find INC disabled, and pass by the model's choice (log entry 7). -/
def Obligations.ClockReadReturnsScaledCounter : Prop :=
  ∀ (s : State) (mid : List Move) (K S : Word), s.busy = true → s.cfg.tben = true → s.ph = 0 →
    (s.opc = 0x20 ∧ K = s.cfg.kms ∧ S = s.cfg.sms ∨ s.opc = 0x21 ∧ K = s.cfg.kus ∧ S = s.cfg.sus) →
    undisturbed mid → mid.count .seq = 4 →
    (∃ u, runMoves (.seq :: mid) s = .next u ∧ u.busy = true) ∧
    runMoves (.seq :: mid ++ [.seq]) s =
      .next { s with
              resp := some (respWord .ok (scale K S s.ovrf)), busy := false, ph := 0, iesave := s.ie, snap := s.ovrf,
              ovp := s.ovp || decide (Move.ev ∈ mid), moves := [] }

/-! ### The delays -/

/-- R130: `T` is the product plus the selected shifts and never reaches 2^32, `Iters` is `T` less the overhead and 0 where
that would be negative, and in a well-formed configuration a request above `MIN` runs at least one iteration. -/
def Obligations.IterationCountNeverWraps : Prop :=
  (∀ (c : Cfg) (us : BitVec 16),
    loopTotal c.kd c.sd us =
      c.kd.toNat * us.toNat +
        ((List.range 32).map (fun a => if 1 ≤ a ∧ c.sd.getLsbD a = true then us.toNat / 2 ^ a else 0)).sum ∧
    loopTotal c.kd c.sd us ≤ 4294901760 ∧
    ((c.iters us).toNat : ℤ) = max 0 ((loopTotal c.kd c.sd us : ℤ) - (c.ovh.toNat : ℤ))) ∧
  (∀ (c : Cfg) (us : BitVec 16), c.WF → c.min < us → 1 ≤ (c.iters us).toNat)

/-- R137 T-4: a longer request never loops fewer times. -/
def Obligations.LongerRequestsNeverLoopLess : Prop :=
  ∀ (c : Cfg) (a b : BitVec 16), a ≤ b → c.iters a ≤ c.iters b

/-- R132, R131, R133: the phases of `DLYUS`: a request at or below `MIN` completes at once, any other loads `ITER` and
loops; each iteration takes one from `ITER`; the step that finds it 0 completes with `(OK, 0)`. Nothing else changes. It is
accepted in every build, and a non-zero bit above bit 15 is illegal. -/
def Obligations.MicrosecondDelayPhases : Prop :=
  (∀ us : BitVec 16, encode (.dlyus us) = 0x3000000000 + us.setWidth 40) ∧
  (∀ w : CmdWord, opcField w = 0x30 → immField w >>> 16 ≠ 0 → decode w = .error .reservedOperandBits) ∧
  (∀ (s : State) (us : BitVec 16), s.busy = false →
    exec (.dlyus us) s = .next { s with busy := true, opc := 0x30, arg := us.setWidth 32, ph := 0 }) ∧
  (∀ (s : State) (us : BitVec 16), s.busy = true → s.arg = us.setWidth 32 →
    (s.ph = 0 → us ≤ s.cfg.min →
      exec (.dlyus us) s = .next { s with resp := some (respWord .ok 0), busy := false, ph := 0 }) ∧
    (s.ph = 0 → s.cfg.min < us → exec (.dlyus us) s = .next { s with iter := s.cfg.iters us, ph := 1 }) ∧
    (s.ph = 1 → s.iter ≠ 0 → exec (.dlyus us) s = .next { s with iter := s.iter - 1 }) ∧
    (s.ph = 1 → s.iter = 0 →
      exec (.dlyus us) s = .next { s with resp := some (respWord .ok 0), busy := false, ph := 0 }))

/-- R134: the phases of `DLYMS`: `MSREM` is loaded with the operand; each time round it is decremented and the loop of a
1000-microsecond delay is run, or skipped where 1000 is at or below `MIN`; when it is 0 the command completes with
`(OK, 0)`. Nothing else changes. It is accepted in every build, and no word with its opcode is illegal. -/
def Obligations.MillisecondDelayPhases : Prop :=
  (∀ ms : Word, encode (.dlyms ms) = 0x3100000000 + ms.setWidth 40) ∧
  (∀ w : CmdWord, opcField w = 0x31 → decode w = .ok (.dlyms (immField w))) ∧
  (∀ (s : State) (ms : Word), s.busy = false →
    exec (.dlyms ms) s = .next { s with busy := true, opc := 0x31, arg := ms, ph := 0 }) ∧
  (∀ (s : State) (ms : Word), s.busy = true → s.arg = ms →
    (s.ph = 0 → exec (.dlyms ms) s = .next { s with msrem := ms, ph := 1 }) ∧
    (s.ph = 1 → s.msrem = 0 →
      exec (.dlyms ms) s = .next { s with resp := some (respWord .ok 0), busy := false, ph := 0 }) ∧
    (s.ph = 1 → s.msrem ≠ 0 → 1000 ≤ s.cfg.min.toNat → exec (.dlyms ms) s = .next { s with msrem := s.msrem - 1 }) ∧
    (s.ph = 1 → s.msrem ≠ 0 → s.cfg.min.toNat < 1000 →
      exec (.dlyms ms) s = .next { s with msrem := s.msrem - 1, iter := s.cfg.iters 1000, ph := 2 }) ∧
    (s.ph = 2 → s.iter ≠ 0 → exec (.dlyms ms) s = .next { s with iter := s.iter - 1 }) ∧
    (s.ph = 2 → s.iter = 0 → exec (.dlyms ms) s = .next { s with ph := 1 }))

/-- R132, R135: `DLYUS #us` takes exactly `2 + Iters(us)` SEQ steps above the threshold and exactly one at or below it,
however many overflow events and increments fall between them; until its last SEQ step it is busy and has not responded,
and it leaves `IE` and `FAULT` as they were. Turns of the interrupt agent that find INC disabled
pass by the model's choice (log entry 7). -/
def Obligations.MicrosecondDelayLength : Prop :=
  ∀ (s : State) (us : BitVec 16) (mid : List Move), s.busy = true → s.opc = 0x30 → s.ph = 0 → s.arg = us.setWidth 32 →
    undisturbed mid →
    mid.count .seq + 1 = (if us ≤ s.cfg.min then 1 else 2 + (s.cfg.iters us).toNat) →
    (∃ u, runMoves mid s = .next u ∧ u.busy = true) ∧ responses mid s = [] ∧
    ∃ t, runMoves (mid ++ [.seq]) s = .next t ∧ t.resp = some (respWord .ok 0) ∧ t.busy = false ∧ t.ph = 0 ∧
      t.ie = s.ie ∧ t.fault = s.fault ∧ (s.cfg.min < us → t.iter = 0)

/-- R134, R135: `DLYMS #ms` takes exactly `2 + ms * (2 + Iters(1000))` SEQ steps, or `2 + ms` where 1000 is at or below
`MIN`, however many overflow events and increments fall between them; until its last SEQ step it is busy and has not
responded, and it leaves `IE` and `FAULT` as they were. Turns of the interrupt agent that find INC
disabled pass by the model's choice (log entry 7). -/
def Obligations.MillisecondDelayLength : Prop :=
  ∀ (s : State) (mid : List Move), s.busy = true → s.opc = 0x31 → s.ph = 0 → undisturbed mid →
    mid.count .seq + 1 =
      (if 1000 ≤ s.cfg.min.toNat then 2 + s.arg.toNat else 2 + s.arg.toNat * (2 + (s.cfg.iters 1000).toNat)) →
    (∃ u, runMoves mid s = .next u ∧ u.busy = true) ∧ responses mid s = [] ∧
    ∃ t, runMoves (mid ++ [.seq]) s = .next t ∧ t.resp = some (respWord .ok 0) ∧ t.busy = false ∧ t.ph = 0 ∧
      t.ie = s.ie ∧ t.fault = s.fault ∧ t.msrem = 0

/-- R132, R134 (D26): a delay neither reads nor writes `IE`, `OVP`, `OVRF`, `FAULT`: from two states that differ only there
its steps do the same to everything else and nothing to those. -/
def Obligations.DelaysIgnoreCounterAndFlags : Prop :=
  ∀ (s t : State) (i : Instr), i.opc = 0x30 ∨ i.opc = 0x31 → agreeOffCounter s t →
    (∀ u, exec i s = .next u →
      ∃ v, exec i t = .next v ∧ agreeOffCounter u v ∧ v.ie = t.ie ∧ v.ovp = t.ovp ∧ v.ovrf = t.ovrf ∧ v.fault = t.fault) ∧
    (∀ e, exec i s = .fault e → exec i t = .fault e)

/-! ### Completion, and programs -/

/-- R204: under weak fairness of SEQ a command in progress completes, whatever else the schedule holds but RESET: it is busy
up to some step, which ends it with an OK response. Under weak fairness of INC a pending increment is taken if `IE` stays
1. Moves without a step pass by the model's choice (log entry 7). -/
def Obligations.FairSchedulesComplete : Prop :=
  (∀ (σ : Nat → Move) (s : State), Inv s → s.busy = true → (∀ n, σ n ≠ .reset) → fairSeq σ s →
    ∃ n t v, runUntil σ s (n + 1) = .next t ∧ t.busy = false ∧ t.resp = some (respWord .ok v) ∧
      ∀ m ≤ n, ∃ u, runUntil σ s m = .next u ∧ u.busy = true) ∧
  (∀ (σ : Nat → Move) (s : State), Inv s → s.cfg.tben = true → s.ovp = true → (∀ n, σ n ≠ .reset) → fairInc σ s →
    (∀ n u, runUntil σ s n = .next u → u.ie = true) →
    ∃ n u t, runUntil σ s n = .next u ∧ σ n = .inc ∧ incEnabled u = true ∧
      runUntil σ s (n + 1) = .next t ∧ t.ovrf = u.ovrf + 1 ∧ t.ovp = false)

/-- R208, R70: along a run of a program there are never more responses than words; where the response to the last word has
been emitted, `BUSY = 0` and `PH = 0`; and from every idle state of the invariant every program has a run that ends.
That a run starts with no command in progress is the model's choice (log entry 21), and so is that turns without a step
pass (log entry 7). -/
def Obligations.ProgramsEndWithSequencerIdle : Prop :=
  (∀ (ws : List CmdWord) (ms : List Move) (s t : State), Inv s → ProgramRun ws ms s t →
    (responses ms s).length ≤ ws.length ∧ (ProgramEnded ws ms s → t.busy = false ∧ t.ph = 0)) ∧
  (∀ (ws : List CmdWord) (s : State), Inv s → s.busy = false →
    ∃ ms t, ProgramRun ws ms s t ∧ ProgramEnded ws ms s)

/-! ### The offline side: the generator and the durations -/

/-- R13: what `Gen` returns satisfies W4, W5 and W6 and lets the clock advance; for an integer ratio below 2^32 it returns
the ratio and no correction term. -/
def Obligations.GeneratorMeetsBudgetSlowly : Prop :=
  (∀ (r : ℚ) (ppm : Nat) (K S : Word), 0 < r → gen r ppm = some (K, S) →
    S.getLsbD 0 = false ∧ 0 < approx K S ∧ approx K S ≤ r ∧ (r - approx K S) * 1000000 ≤ ppm * r) ∧
  (∀ (n ppm : Nat), 0 < n → n < 2 ^ 32 → gen (n : ℚ) ppm = some (BitVec.ofNat 32 n, 0))

/-- R14: a tighter tolerance keeps the multiplier, keeps every shift term of a looser one, and never has a larger error. -/
def Obligations.TighterBudgetNeverLessAccurate : Prop :=
  ∀ (r : ℚ) (tight loose : Nat) (K S K' S' : Word), 0 < r → tight ≤ loose →
    gen r loose = some (K, S) → gen r tight = some (K', S') →
    K = K' ∧ S &&& S' = S ∧ r - approx K' S' ≤ r - approx K S

/-- R135, R199, R205, R206: every INC step inside a `DLYUS` or a `DLYMS` lengthens it by `C_ISR`, in a `DLYMS` also one
outside its inner delays (read from R135 and R199, log entry 20); and for a constant set that never under-delays a `DLYMS`
lasts at least the requested milliseconds, with any interrupts for the oblivious set, and with the expected ones in each
inner delay for the calibrated set. -/
def Obligations.MillisecondDelayNeverShort : Prop :=
  (∀ (t : Timing) (c : Cfg) (us : BitVec 16) (j k : Nat), j ≤ k →
    microsCycles t c us k = microsCycles t c us j + (k - j) * t.cIsr) ∧
  (∀ (t : Timing) (c : Cfg) (js : List Nat) (outside : Nat),
    millisCycles t c js outside =
      millisCycles t c (List.replicate js.length 0) 0 + (js.sum + outside) * t.cIsr) ∧
  (∀ (t : Timing) (c : Cfg) (js : List Nat) (outside : Nat), neverUnderDelays t c →
    (c.dcal = true → ∀ j ∈ js, expectedInterrupts t c 1000 j) →
    js.length * c.fcpu ≤ millisCycles t c js outside * 1000)

/-! ### The host's text -/

/-- R80: for every command that has an operand, a value is accepted exactly when it fits its format, and the assembled word
carries that value: nothing is truncated. -/
def Obligations.AssemblerNeverTruncates : Prop :=
  (∀ (m : List Char) (v : Nat) (i : Instr), operandCommand m v = some i →
    i.operand.toNat = v ∧ v < 2 ^ i.format.usedBits ∧ (immField (encode i)).toNat = v) ∧
  (∀ v : Nat, ((operandCommand ['I', 'E', 'S', 'E', 'T'] v).isSome = true ↔ v < 2) ∧
    ((operandCommand ['D', 'L', 'Y', 'U', 'S'] v).isSome = true ↔ v < 65536) ∧
    ((operandCommand ['D', 'L', 'Y', 'M', 'S'] v).isSome = true ↔ v < 2 ^ 32) ∧
    ((operandCommand ['R', 'L', 'M', 'S'] v).isSome = true ↔ v < 2 ^ 32) ∧
    ((operandCommand ['R', 'L', 'U', 'S'] v).isSome = true ↔ v < 2 ^ 32))
end

