-- ==== Sys2Proof/Laws/Datapath.lean ====
section
/-! SUPPORT. The small lemmas of the datapath, of the bytes of a word, and of the response word. -/

namespace Sys2Proof.Machine

@[simp] theorem shr_zero (s : Nat) : shr 0 s = 0 := by simp [shr]

theorem shr_mono {x y : Nat} (h : x ≤ y) (s : Nat) : shr x s ≤ shr y s := Nat.div_le_div_right h

/-- A shift amount is selected exactly when it is in 1..31 and its mask bit is set. -/
theorem mem_shiftAmounts {S : Word} {a : Nat} : a ∈ shiftAmounts S ↔ (1 ≤ a ∧ a < 32) ∧ S.getLsbD a = true := by
  simp [shiftAmounts, List.mem_filter, List.mem_range'_1]

@[simp] theorem shiftAmounts_zero : shiftAmounts 0 = [] := by simp [shiftAmounts]

@[simp] theorem shiftSum_zero_mask (x : Nat) : shiftSum 0 x = 0 := by
  rw [shiftSum, shiftAmounts_zero]
  rfl

@[simp] theorem shiftSum_zero (S : Word) : shiftSum S 0 = 0 := by
  have h : shr 0 = fun _ => 0 := funext shr_zero
  simp [shiftSum, h]

/-- The sum of the selected shifts grows with the value shifted. -/
theorem shiftSum_mono (S : Word) {x y : Nat} (h : x ≤ y) : shiftSum S x ≤ shiftSum S y :=
  List.sum_le_sum (fun s _ => shr_mono h s)

@[simp] theorem scale_toNat (K S x : Word) : (scale K S x).toNat = scaleTotal K S x % 2 ^ 32 := by
  simp [scale]

theorem byteOf_getLsbD (v : Word) (k : Fin 4) (j : Nat) :
    (byteOf v k).getLsbD j = (decide (j < 8) && v.getLsbD (8 * k.val + j)) := by
  simp [byteOf, BitVec.getLsbD_extractLsb']

/-- Two words with the same four bytes are the same word. -/
theorem eq_of_bytes {v w : Word} (h : ∀ k : Fin 4, byteOf v k = byteOf w k) : v = w := by
  apply BitVec.eq_of_getLsbD_eq
  intro n hn
  have := congrArg (fun b : Byte => b.getLsbD (n % 8)) (h ⟨n / 8, by omega⟩)
  simp only [byteOf_getLsbD] at this
  simpa [Nat.mod_lt, Nat.div_add_mod] using this

/-- Writing a byte changes that byte and no other. -/
theorem byteOf_setByte (v : Word) (k j : Fin 4) (b : Byte) :
    byteOf (setByte v k b) j = if j = k then b else byteOf v j := by
  apply BitVec.eq_of_getLsbD_eq
  intro n hn
  fin_cases k <;> fin_cases j <;> interval_cases n <;> simp [byteOf, setByte]

/-- The bits of a response word: the value below, the status above. -/
theorem respWord_getLsbD (st : Status) (v : Word) (n : Nat) :
    (respWord st v).getLsbD n = if n < 32 then v.getLsbD n else st.code.getLsbD (n - 32) :=
  BitVec.getLsbD_append

@[simp] theorem respStatus_respWord (st : Status) (v : Word) : respStatus (respWord st v) = st.code := by
  apply BitVec.eq_of_getLsbD_eq
  intro n hn
  simp [respStatus, respWord_getLsbD, hn]

@[simp] theorem respValue_respWord (st : Status) (v : Word) : respValue (respWord st v) = v := by
  apply BitVec.eq_of_getLsbD_eq
  intro n hn
  simp [respValue, respWord_getLsbD, hn]

end Sys2Proof.Machine
end

