-- ==== Sys2Proof/Laws/Decode.lean ====
section
/-! SUPPORT. The small lemmas of the encoding: the fields of an encoded word, and what each opcode names. -/

namespace Sys2Proof

/-- The bits of a command word: the operand field below, the opcode above. -/
theorem cmdWord_getLsbD (o : BitVec 8) (a : Word) (n : Nat) :
    (o ++ a : CmdWord).getLsbD n = if n < 32 then a.getLsbD n else o.getLsbD (n - 32) :=
  BitVec.getLsbD_append

/-- A command word as a number. -/
theorem cmdWord_toNat (o : BitVec 8) (a : Word) : (o ++ a : CmdWord).toNat = o.toNat * 2 ^ 32 + a.toNat := by
  have h : (o ++ a : CmdWord).toNat = o.toNat <<< 32 ||| a.toNat := BitVec.toNat_append o a
  rw [h, ← Nat.shiftLeft_add_eq_or_of_lt a.isLt, Nat.shiftLeft_eq]

@[simp] theorem opcField_append (o : BitVec 8) (a : Word) : opcField (o ++ a) = o := by
  apply BitVec.eq_of_getLsbD_eq
  intro n hn
  simp [opcField, cmdWord_getLsbD, hn]

@[simp] theorem immField_append (o : BitVec 8) (a : Word) : immField (o ++ a) = a := by
  apply BitVec.eq_of_getLsbD_eq
  intro n hn
  simp [immField, cmdWord_getLsbD, hn]

/-- A command word is its two fields. -/
@[simp] theorem fields_append (w : CmdWord) : opcField w ++ immField w = w := by
  apply BitVec.eq_of_getLsbD_eq
  intro n hn
  rw [cmdWord_getLsbD]
  split
  · simp [immField, *]
  · simp [opcField, show n - 32 < 8 by omega, show 32 + (n - 32) = n by omega]

@[simp] theorem opcField_encode (i : Instr) : opcField (encode i) = i.opc := opcField_append _ _

@[simp] theorem immField_encode (i : Instr) : immField (encode i) = i.operand := immField_append _ _

/-- The command an opcode names has that opcode. -/
theorem opc_of_instrOfOpc {o : BitVec 8} {a : Word} {i : Instr} (h : instrOfOpc o a = some i) : i.opc = o := by
  unfold instrOfOpc at h
  split at h <;> first | (cases h; apply BitVec.eq_of_toNat_eq; simp_all [Instr.opc]) | cases h

/-- A word decodes to what its opcode names, with zero reserved bits. -/
theorem decode_ok {w : CmdWord} {i : Instr} :
    decode w = .ok i ↔ instrOfOpc (opcField w) (immField w) = some i ∧ immField w >>> i.format.usedBits = 0 := by
  unfold decode
  cases instrOfOpc (opcField w) (immField w) with
  | none => simp
  | some j =>
    by_cases h : immField w >>> j.format.usedBits = 0
    · simp only [h, if_true]
      exact ⟨fun e => by cases e; exact ⟨rfl, h⟩, fun e => by cases e.1; rfl⟩
    · simp only [h, if_false]
      exact ⟨fun e => (nomatch e), fun e => by cases e.1; exact absurd e.2 h⟩

/-- A shifted-down word is 0 exactly when it is below the power of two. -/
theorem ushiftRight_eq_zero_iff (a : Word) (k : Nat) : a >>> k = 0 ↔ a.toNat < 2 ^ k := by
  rw [← BitVec.toNat_inj, BitVec.toNat_ushiftRight, Nat.shiftRight_eq_div_pow]
  exact Nat.div_eq_zero_iff_lt (Nat.two_pow_pos k)

/-- A command word as the number its two fields make. -/
theorem word_toNat (w : CmdWord) : w.toNat = (opcField w).toNat * 2 ^ 32 + (immField w).toNat := by
  rw [← cmdWord_toNat, fields_append]

/-- The mask that keeps the bits from `k` up clears the rest. -/
theorem and_highMask (w m : CmdWord) (k : Nat) (hm : m = BitVec.allOnes 40 <<< k) :
    (w &&& m).toNat = w.toNat / 2 ^ k * 2 ^ k := by
  have h : w.toNat / 2 ^ k * 2 ^ k < 2 ^ 40 := Nat.lt_of_le_of_lt (Nat.div_mul_le_self _ _) w.isLt
  have hs : (w >>> k <<< k).toNat = w.toNat / 2 ^ k * 2 ^ k := by
    simpa [Nat.shiftRight_eq_div_pow, Nat.shiftLeft_eq] using h
  rw [← hs, hm]
  congr 1
  apply BitVec.eq_of_getLsbD_eq
  intro n hn
  simp only [BitVec.getLsbD_and, BitVec.getLsbD_shiftLeft, BitVec.getLsbD_ushiftRight, BitVec.getLsbD_allOnes]
  by_cases hk : n < k
  · simp [hk]
  · simp [hk, hn, show k + (n - k) = n by omega]
    intro
    omega

/-- Each row's mask keeps the opcode and the reserved bits, as its format says (R71, R73). -/
theorem row_mask : ∀ r ∈ opcodeTable, r.mask = BitVec.allOnes 40 <<< r.format.usedBits := by decide

/-- Each row's match value is its opcode with a zero operand field (R73). -/
theorem row_pattern : ∀ r ∈ opcodeTable, r.pattern.toNat = r.opc.toNat * 2 ^ 32 := by decide

/-- No two rows have one opcode (R73). -/
theorem row_opc_inj : ∀ r ∈ opcodeTable, ∀ q ∈ opcodeTable, r.opc = q.opc → r = q := by decide

/-- A word selects a row exactly when it has the row's opcode and no reserved bit set. -/
theorem row_selected (w : CmdWord) (r : Row) (hr : r ∈ opcodeTable) :
    w &&& r.mask = r.pattern ↔ opcField w = r.opc ∧ (immField w).toNat < 2 ^ r.format.usedBits := by
  have hw := word_toNat w
  have hi := (immField w).isLt
  have hp := row_pattern r hr
  rw [← BitVec.toNat_inj, ← BitVec.toNat_inj, and_highMask w _ _ (row_mask r hr), hp, hw]
  cases r.format <;> simp only [Format.usedBits] <;> omega

end Sys2Proof
end

