-- ==== Sys2Proof/Laws/PerInstr.lean ====
section
/-! SUPPORT. A family of statements made command by command: the operand a command carries is what its opcode and its operand
field give back, and its reserved bits are zero. -/

namespace Sys2Proof.Laws.OperandLatch

/-- R72: the opcode and the zero-extended operand name the command again, and the operand stays within its format. -/
abbrev Statement (i : Instr) : Prop := instrOfOpc i.opc i.operand = some i ∧ i.operand >>> i.format.usedBits = 0

theorem nop : Statement .nop := by decide
theorem rdst : Statement .rdst := by decide
theorem ieget : Statement .ieget := by decide
theorem ieset (b : BitVec 1) : Statement (.ieset b) := by revert b; decide
theorem rdb0 : Statement .rdb0 := by decide
theorem rdb1 : Statement .rdb1 := by decide
theorem rdb2 : Statement .rdb2 := by decide
theorem rdb3 : Statement .rdb3 := by decide
theorem rdms : Statement .rdms := by decide
theorem rdus : Statement .rdus := by decide
theorem rlms (n : Word) : Statement (.rlms n) := ⟨rfl, BitVec.ushiftRight_eq_zero (Nat.le_refl 32)⟩
theorem rlus (n : Word) : Statement (.rlus n) := ⟨rfl, BitVec.ushiftRight_eq_zero (Nat.le_refl 32)⟩
theorem dlyus (us : BitVec 16) : Statement (.dlyus us) := by
  have h : (us.setWidth 32 : Word).extractLsb' 0 16 = us := by
    apply BitVec.eq_of_toNat_eq
    simpa using us.isLt
  refine ⟨congrArg (fun v => some (Instr.dlyus v)) h, ?_⟩
  apply BitVec.eq_of_getLsbD_eq
  intro n hn
  simp [Instr.operand, Instr.format, Format.usedBits]
theorem dlyms (ms : Word) : Statement (.dlyms ms) := ⟨rfl, BitVec.ushiftRight_eq_zero (Nat.le_refl 32)⟩

end Sys2Proof.Laws.OperandLatch
end

