-- ==== Sys2Proof/Laws/State.lean ====
section
/-! SUPPORT. For each operation on the state, what it leaves in each field: one lemma a field, each true by rfl, so that no
later proof unfolds a record update. -/

namespace Sys2Proof.Machine

@[simp] theorem setIe_cfg (b : Bool) (s : State) : (setIe b s).cfg = s.cfg := rfl
@[simp] theorem setIe_ovrf (b : Bool) (s : State) : (setIe b s).ovrf = s.ovrf := rfl
@[simp] theorem setIe_ovp (b : Bool) (s : State) : (setIe b s).ovp = s.ovp := rfl
@[simp] theorem setIe_ie (b : Bool) (s : State) : (setIe b s).ie = b := rfl
@[simp] theorem setIe_iesave (b : Bool) (s : State) : (setIe b s).iesave = s.iesave := rfl
@[simp] theorem setIe_snap (b : Bool) (s : State) : (setIe b s).snap = s.snap := rfl
@[simp] theorem setIe_arg (b : Bool) (s : State) : (setIe b s).arg = s.arg := rfl
@[simp] theorem setIe_iter (b : Bool) (s : State) : (setIe b s).iter = s.iter := rfl
@[simp] theorem setIe_msrem (b : Bool) (s : State) : (setIe b s).msrem = s.msrem := rfl
@[simp] theorem setIe_busy (b : Bool) (s : State) : (setIe b s).busy = s.busy := rfl
@[simp] theorem setIe_opc (b : Bool) (s : State) : (setIe b s).opc = s.opc := rfl
@[simp] theorem setIe_ph (b : Bool) (s : State) : (setIe b s).ph = s.ph := rfl
@[simp] theorem setIe_fault (b : Bool) (s : State) : (setIe b s).fault = s.fault := rfl
@[simp] theorem setIe_resp (b : Bool) (s : State) : (setIe b s).resp = s.resp := rfl
@[simp] theorem setIe_moves (b : Bool) (s : State) : (setIe b s).moves = s.moves := rfl
@[simp] theorem setIe_freeTurns (b : Bool) (s : State) : (setIe b s).freeTurns = s.freeTurns := rfl

@[simp] theorem saveAndMask_cfg (s : State) : (saveAndMask s).cfg = s.cfg := rfl
@[simp] theorem saveAndMask_ovrf (s : State) : (saveAndMask s).ovrf = s.ovrf := rfl
@[simp] theorem saveAndMask_ovp (s : State) : (saveAndMask s).ovp = s.ovp := rfl
@[simp] theorem saveAndMask_ie (s : State) : (saveAndMask s).ie = false := rfl
@[simp] theorem saveAndMask_iesave (s : State) : (saveAndMask s).iesave = s.ie := rfl
@[simp] theorem saveAndMask_snap (s : State) : (saveAndMask s).snap = s.snap := rfl
@[simp] theorem saveAndMask_arg (s : State) : (saveAndMask s).arg = s.arg := rfl
@[simp] theorem saveAndMask_iter (s : State) : (saveAndMask s).iter = s.iter := rfl
@[simp] theorem saveAndMask_msrem (s : State) : (saveAndMask s).msrem = s.msrem := rfl
@[simp] theorem saveAndMask_busy (s : State) : (saveAndMask s).busy = s.busy := rfl
@[simp] theorem saveAndMask_opc (s : State) : (saveAndMask s).opc = s.opc := rfl
@[simp] theorem saveAndMask_ph (s : State) : (saveAndMask s).ph = s.ph := rfl
@[simp] theorem saveAndMask_fault (s : State) : (saveAndMask s).fault = s.fault := rfl
@[simp] theorem saveAndMask_resp (s : State) : (saveAndMask s).resp = s.resp := rfl
@[simp] theorem saveAndMask_moves (s : State) : (saveAndMask s).moves = s.moves := rfl
@[simp] theorem saveAndMask_freeTurns (s : State) : (saveAndMask s).freeTurns = s.freeTurns := rfl

@[simp] theorem restoreIe_cfg (s : State) : (restoreIe s).cfg = s.cfg := rfl
@[simp] theorem restoreIe_ovrf (s : State) : (restoreIe s).ovrf = s.ovrf := rfl
@[simp] theorem restoreIe_ovp (s : State) : (restoreIe s).ovp = s.ovp := rfl
@[simp] theorem restoreIe_ie (s : State) : (restoreIe s).ie = s.iesave := rfl
@[simp] theorem restoreIe_iesave (s : State) : (restoreIe s).iesave = s.iesave := rfl
@[simp] theorem restoreIe_snap (s : State) : (restoreIe s).snap = s.snap := rfl
@[simp] theorem restoreIe_arg (s : State) : (restoreIe s).arg = s.arg := rfl
@[simp] theorem restoreIe_iter (s : State) : (restoreIe s).iter = s.iter := rfl
@[simp] theorem restoreIe_msrem (s : State) : (restoreIe s).msrem = s.msrem := rfl
@[simp] theorem restoreIe_busy (s : State) : (restoreIe s).busy = s.busy := rfl
@[simp] theorem restoreIe_opc (s : State) : (restoreIe s).opc = s.opc := rfl
@[simp] theorem restoreIe_ph (s : State) : (restoreIe s).ph = s.ph := rfl
@[simp] theorem restoreIe_fault (s : State) : (restoreIe s).fault = s.fault := rfl
@[simp] theorem restoreIe_resp (s : State) : (restoreIe s).resp = s.resp := rfl
@[simp] theorem restoreIe_moves (s : State) : (restoreIe s).moves = s.moves := rfl
@[simp] theorem restoreIe_freeTurns (s : State) : (restoreIe s).freeTurns = s.freeTurns := rfl

@[simp] theorem setPending_cfg (s : State) : (setPending s).cfg = s.cfg := rfl
@[simp] theorem setPending_ovrf (s : State) : (setPending s).ovrf = s.ovrf := rfl
@[simp] theorem setPending_ovp (s : State) : (setPending s).ovp = (s.ovp || s.cfg.tben) := rfl
@[simp] theorem setPending_ie (s : State) : (setPending s).ie = s.ie := rfl
@[simp] theorem setPending_iesave (s : State) : (setPending s).iesave = s.iesave := rfl
@[simp] theorem setPending_snap (s : State) : (setPending s).snap = s.snap := rfl
@[simp] theorem setPending_arg (s : State) : (setPending s).arg = s.arg := rfl
@[simp] theorem setPending_iter (s : State) : (setPending s).iter = s.iter := rfl
@[simp] theorem setPending_msrem (s : State) : (setPending s).msrem = s.msrem := rfl
@[simp] theorem setPending_busy (s : State) : (setPending s).busy = s.busy := rfl
@[simp] theorem setPending_opc (s : State) : (setPending s).opc = s.opc := rfl
@[simp] theorem setPending_ph (s : State) : (setPending s).ph = s.ph := rfl
@[simp] theorem setPending_fault (s : State) : (setPending s).fault = s.fault := rfl
@[simp] theorem setPending_resp (s : State) : (setPending s).resp = s.resp := rfl
@[simp] theorem setPending_moves (s : State) : (setPending s).moves = s.moves := rfl
@[simp] theorem setPending_freeTurns (s : State) : (setPending s).freeTurns = s.freeTurns := rfl

@[simp] theorem recordFault_cfg (s : State) : (recordFault s).cfg = s.cfg := rfl
@[simp] theorem recordFault_ovrf (s : State) : (recordFault s).ovrf = s.ovrf := rfl
@[simp] theorem recordFault_ovp (s : State) : (recordFault s).ovp = s.ovp := rfl
@[simp] theorem recordFault_ie (s : State) : (recordFault s).ie = s.ie := rfl
@[simp] theorem recordFault_iesave (s : State) : (recordFault s).iesave = s.iesave := rfl
@[simp] theorem recordFault_snap (s : State) : (recordFault s).snap = s.snap := rfl
@[simp] theorem recordFault_arg (s : State) : (recordFault s).arg = s.arg := rfl
@[simp] theorem recordFault_iter (s : State) : (recordFault s).iter = s.iter := rfl
@[simp] theorem recordFault_msrem (s : State) : (recordFault s).msrem = s.msrem := rfl
@[simp] theorem recordFault_busy (s : State) : (recordFault s).busy = s.busy := rfl
@[simp] theorem recordFault_opc (s : State) : (recordFault s).opc = s.opc := rfl
@[simp] theorem recordFault_ph (s : State) : (recordFault s).ph = s.ph := rfl
@[simp] theorem recordFault_fault (s : State) : (recordFault s).fault = true := rfl
@[simp] theorem recordFault_resp (s : State) : (recordFault s).resp = s.resp := rfl
@[simp] theorem recordFault_moves (s : State) : (recordFault s).moves = s.moves := rfl
@[simp] theorem recordFault_freeTurns (s : State) : (recordFault s).freeTurns = s.freeTurns := rfl

@[simp] theorem respond_cfg (st : Status) (v : Word) (s : State) : (respond st v s).cfg = s.cfg := rfl
@[simp] theorem respond_ovrf (st : Status) (v : Word) (s : State) : (respond st v s).ovrf = s.ovrf := rfl
@[simp] theorem respond_ovp (st : Status) (v : Word) (s : State) : (respond st v s).ovp = s.ovp := rfl
@[simp] theorem respond_ie (st : Status) (v : Word) (s : State) : (respond st v s).ie = s.ie := rfl
@[simp] theorem respond_iesave (st : Status) (v : Word) (s : State) : (respond st v s).iesave = s.iesave := rfl
@[simp] theorem respond_snap (st : Status) (v : Word) (s : State) : (respond st v s).snap = s.snap := rfl
@[simp] theorem respond_arg (st : Status) (v : Word) (s : State) : (respond st v s).arg = s.arg := rfl
@[simp] theorem respond_iter (st : Status) (v : Word) (s : State) : (respond st v s).iter = s.iter := rfl
@[simp] theorem respond_msrem (st : Status) (v : Word) (s : State) : (respond st v s).msrem = s.msrem := rfl
@[simp] theorem respond_busy (st : Status) (v : Word) (s : State) : (respond st v s).busy = s.busy := rfl
@[simp] theorem respond_opc (st : Status) (v : Word) (s : State) : (respond st v s).opc = s.opc := rfl
@[simp] theorem respond_ph (st : Status) (v : Word) (s : State) : (respond st v s).ph = s.ph := rfl
@[simp] theorem respond_fault (st : Status) (v : Word) (s : State) : (respond st v s).fault = s.fault := rfl
@[simp] theorem respond_resp (st : Status) (v : Word) (s : State) : (respond st v s).resp = some (respWord st v) := rfl
@[simp] theorem respond_moves (st : Status) (v : Word) (s : State) : (respond st v s).moves = s.moves := rfl
@[simp] theorem respond_freeTurns (st : Status) (v : Word) (s : State) : (respond st v s).freeTurns = s.freeTurns := rfl

@[simp] theorem goto_cfg (n : BitVec 3) (s : State) : (goto n s).cfg = s.cfg := rfl
@[simp] theorem goto_ovrf (n : BitVec 3) (s : State) : (goto n s).ovrf = s.ovrf := rfl
@[simp] theorem goto_ovp (n : BitVec 3) (s : State) : (goto n s).ovp = s.ovp := rfl
@[simp] theorem goto_ie (n : BitVec 3) (s : State) : (goto n s).ie = s.ie := rfl
@[simp] theorem goto_iesave (n : BitVec 3) (s : State) : (goto n s).iesave = s.iesave := rfl
@[simp] theorem goto_snap (n : BitVec 3) (s : State) : (goto n s).snap = s.snap := rfl
@[simp] theorem goto_arg (n : BitVec 3) (s : State) : (goto n s).arg = s.arg := rfl
@[simp] theorem goto_iter (n : BitVec 3) (s : State) : (goto n s).iter = s.iter := rfl
@[simp] theorem goto_msrem (n : BitVec 3) (s : State) : (goto n s).msrem = s.msrem := rfl
@[simp] theorem goto_busy (n : BitVec 3) (s : State) : (goto n s).busy = s.busy := rfl
@[simp] theorem goto_opc (n : BitVec 3) (s : State) : (goto n s).opc = s.opc := rfl
@[simp] theorem goto_ph (n : BitVec 3) (s : State) : (goto n s).ph = n := rfl
@[simp] theorem goto_fault (n : BitVec 3) (s : State) : (goto n s).fault = s.fault := rfl
@[simp] theorem goto_resp (n : BitVec 3) (s : State) : (goto n s).resp = s.resp := rfl
@[simp] theorem goto_moves (n : BitVec 3) (s : State) : (goto n s).moves = s.moves := rfl
@[simp] theorem goto_freeTurns (n : BitVec 3) (s : State) : (goto n s).freeTurns = s.freeTurns := rfl

@[simp] theorem done_cfg (v : Word) (s : State) : (done v s).cfg = s.cfg := rfl
@[simp] theorem done_ovrf (v : Word) (s : State) : (done v s).ovrf = s.ovrf := rfl
@[simp] theorem done_ovp (v : Word) (s : State) : (done v s).ovp = s.ovp := rfl
@[simp] theorem done_ie (v : Word) (s : State) : (done v s).ie = s.ie := rfl
@[simp] theorem done_iesave (v : Word) (s : State) : (done v s).iesave = s.iesave := rfl
@[simp] theorem done_snap (v : Word) (s : State) : (done v s).snap = s.snap := rfl
@[simp] theorem done_arg (v : Word) (s : State) : (done v s).arg = s.arg := rfl
@[simp] theorem done_iter (v : Word) (s : State) : (done v s).iter = s.iter := rfl
@[simp] theorem done_msrem (v : Word) (s : State) : (done v s).msrem = s.msrem := rfl
@[simp] theorem done_busy (v : Word) (s : State) : (done v s).busy = false := rfl
@[simp] theorem done_opc (v : Word) (s : State) : (done v s).opc = s.opc := rfl
@[simp] theorem done_ph (v : Word) (s : State) : (done v s).ph = 0 := rfl
@[simp] theorem done_fault (v : Word) (s : State) : (done v s).fault = s.fault := rfl
@[simp] theorem done_resp (v : Word) (s : State) : (done v s).resp = some (respWord .ok v) := rfl
@[simp] theorem done_moves (v : Word) (s : State) : (done v s).moves = s.moves := rfl
@[simp] theorem done_freeTurns (v : Word) (s : State) : (done v s).freeTurns = s.freeTurns := rfl

@[simp] theorem raise_cfg (st : Status) (s : State) : (raise st s).cfg = s.cfg := rfl
@[simp] theorem raise_ovrf (st : Status) (s : State) : (raise st s).ovrf = s.ovrf := rfl
@[simp] theorem raise_ovp (st : Status) (s : State) : (raise st s).ovp = s.ovp := rfl
@[simp] theorem raise_ie (st : Status) (s : State) : (raise st s).ie = s.ie := rfl
@[simp] theorem raise_iesave (st : Status) (s : State) : (raise st s).iesave = s.iesave := rfl
@[simp] theorem raise_snap (st : Status) (s : State) : (raise st s).snap = s.snap := rfl
@[simp] theorem raise_arg (st : Status) (s : State) : (raise st s).arg = s.arg := rfl
@[simp] theorem raise_iter (st : Status) (s : State) : (raise st s).iter = s.iter := rfl
@[simp] theorem raise_msrem (st : Status) (s : State) : (raise st s).msrem = s.msrem := rfl
@[simp] theorem raise_busy (st : Status) (s : State) : (raise st s).busy = s.busy := rfl
@[simp] theorem raise_opc (st : Status) (s : State) : (raise st s).opc = s.opc := rfl
@[simp] theorem raise_ph (st : Status) (s : State) : (raise st s).ph = s.ph := rfl
@[simp] theorem raise_fault (st : Status) (s : State) : (raise st s).fault = true := rfl
@[simp] theorem raise_resp (st : Status) (s : State) : (raise st s).resp = some (respWord st 0) := rfl
@[simp] theorem raise_moves (st : Status) (s : State) : (raise st s).moves = s.moves := rfl
@[simp] theorem raise_freeTurns (st : Status) (s : State) : (raise st s).freeTurns = s.freeTurns := rfl

@[simp] theorem takeInterrupt_cfg (s : State) : (takeInterrupt s).cfg = s.cfg := rfl
@[simp] theorem takeInterrupt_ovrf (s : State) : (takeInterrupt s).ovrf = s.ovrf + 1 := rfl
@[simp] theorem takeInterrupt_ovp (s : State) : (takeInterrupt s).ovp = false := rfl
@[simp] theorem takeInterrupt_ie (s : State) : (takeInterrupt s).ie = s.ie := rfl
@[simp] theorem takeInterrupt_iesave (s : State) : (takeInterrupt s).iesave = s.iesave := rfl
@[simp] theorem takeInterrupt_snap (s : State) : (takeInterrupt s).snap = s.snap := rfl
@[simp] theorem takeInterrupt_arg (s : State) : (takeInterrupt s).arg = s.arg := rfl
@[simp] theorem takeInterrupt_iter (s : State) : (takeInterrupt s).iter = s.iter := rfl
@[simp] theorem takeInterrupt_msrem (s : State) : (takeInterrupt s).msrem = s.msrem := rfl
@[simp] theorem takeInterrupt_busy (s : State) : (takeInterrupt s).busy = s.busy := rfl
@[simp] theorem takeInterrupt_opc (s : State) : (takeInterrupt s).opc = s.opc := rfl
@[simp] theorem takeInterrupt_ph (s : State) : (takeInterrupt s).ph = s.ph := rfl
@[simp] theorem takeInterrupt_fault (s : State) : (takeInterrupt s).fault = s.fault := rfl
@[simp] theorem takeInterrupt_resp (s : State) : (takeInterrupt s).resp = s.resp := rfl
@[simp] theorem takeInterrupt_moves (s : State) : (takeInterrupt s).moves = s.moves := rfl
@[simp] theorem takeInterrupt_freeTurns (s : State) : (takeInterrupt s).freeTurns = s.freeTurns := rfl

@[simp] theorem accept_cfg (i : Instr) (s : State) : (accept i s).cfg = s.cfg := rfl
@[simp] theorem accept_ovrf (i : Instr) (s : State) : (accept i s).ovrf = s.ovrf := rfl
@[simp] theorem accept_ovp (i : Instr) (s : State) : (accept i s).ovp = s.ovp := rfl
@[simp] theorem accept_ie (i : Instr) (s : State) : (accept i s).ie = s.ie := rfl
@[simp] theorem accept_iesave (i : Instr) (s : State) : (accept i s).iesave = s.iesave := rfl
@[simp] theorem accept_snap (i : Instr) (s : State) : (accept i s).snap = s.snap := rfl
@[simp] theorem accept_arg (i : Instr) (s : State) : (accept i s).arg = i.operand := rfl
@[simp] theorem accept_iter (i : Instr) (s : State) : (accept i s).iter = s.iter := rfl
@[simp] theorem accept_msrem (i : Instr) (s : State) : (accept i s).msrem = s.msrem := rfl
@[simp] theorem accept_busy (i : Instr) (s : State) : (accept i s).busy = true := rfl
@[simp] theorem accept_opc (i : Instr) (s : State) : (accept i s).opc = i.opc := rfl
@[simp] theorem accept_ph (i : Instr) (s : State) : (accept i s).ph = 0 := rfl
@[simp] theorem accept_fault (i : Instr) (s : State) : (accept i s).fault = s.fault := rfl
@[simp] theorem accept_resp (i : Instr) (s : State) : (accept i s).resp = s.resp := rfl
@[simp] theorem accept_moves (i : Instr) (s : State) : (accept i s).moves = s.moves := rfl
@[simp] theorem accept_freeTurns (i : Instr) (s : State) : (accept i s).freeTurns = s.freeTurns := rfl

@[simp] theorem copyByte_cfg (k : Fin 4) (s : State) : (copyByte k s).cfg = s.cfg := rfl
@[simp] theorem copyByte_ovrf (k : Fin 4) (s : State) : (copyByte k s).ovrf = s.ovrf := rfl
@[simp] theorem copyByte_ovp (k : Fin 4) (s : State) : (copyByte k s).ovp = s.ovp := rfl
@[simp] theorem copyByte_ie (k : Fin 4) (s : State) : (copyByte k s).ie = s.ie := rfl
@[simp] theorem copyByte_iesave (k : Fin 4) (s : State) : (copyByte k s).iesave = s.iesave := rfl
@[simp] theorem copyByte_snap (k : Fin 4) (s : State) : (copyByte k s).snap = setByte s.snap k (memRead s k) := rfl
@[simp] theorem copyByte_arg (k : Fin 4) (s : State) : (copyByte k s).arg = s.arg := rfl
@[simp] theorem copyByte_iter (k : Fin 4) (s : State) : (copyByte k s).iter = s.iter := rfl
@[simp] theorem copyByte_msrem (k : Fin 4) (s : State) : (copyByte k s).msrem = s.msrem := rfl
@[simp] theorem copyByte_busy (k : Fin 4) (s : State) : (copyByte k s).busy = s.busy := rfl
@[simp] theorem copyByte_opc (k : Fin 4) (s : State) : (copyByte k s).opc = s.opc := rfl
@[simp] theorem copyByte_ph (k : Fin 4) (s : State) : (copyByte k s).ph = s.ph := rfl
@[simp] theorem copyByte_fault (k : Fin 4) (s : State) : (copyByte k s).fault = s.fault := rfl
@[simp] theorem copyByte_resp (k : Fin 4) (s : State) : (copyByte k s).resp = s.resp := rfl
@[simp] theorem copyByte_moves (k : Fin 4) (s : State) : (copyByte k s).moves = s.moves := rfl
@[simp] theorem copyByte_freeTurns (k : Fin 4) (s : State) : (copyByte k s).freeTurns = s.freeTurns := rfl

@[simp] theorem loadIter_cfg (v : Word) (s : State) : (loadIter v s).cfg = s.cfg := rfl
@[simp] theorem loadIter_ovrf (v : Word) (s : State) : (loadIter v s).ovrf = s.ovrf := rfl
@[simp] theorem loadIter_ovp (v : Word) (s : State) : (loadIter v s).ovp = s.ovp := rfl
@[simp] theorem loadIter_ie (v : Word) (s : State) : (loadIter v s).ie = s.ie := rfl
@[simp] theorem loadIter_iesave (v : Word) (s : State) : (loadIter v s).iesave = s.iesave := rfl
@[simp] theorem loadIter_snap (v : Word) (s : State) : (loadIter v s).snap = s.snap := rfl
@[simp] theorem loadIter_arg (v : Word) (s : State) : (loadIter v s).arg = s.arg := rfl
@[simp] theorem loadIter_iter (v : Word) (s : State) : (loadIter v s).iter = v := rfl
@[simp] theorem loadIter_msrem (v : Word) (s : State) : (loadIter v s).msrem = s.msrem := rfl
@[simp] theorem loadIter_busy (v : Word) (s : State) : (loadIter v s).busy = s.busy := rfl
@[simp] theorem loadIter_opc (v : Word) (s : State) : (loadIter v s).opc = s.opc := rfl
@[simp] theorem loadIter_ph (v : Word) (s : State) : (loadIter v s).ph = s.ph := rfl
@[simp] theorem loadIter_fault (v : Word) (s : State) : (loadIter v s).fault = s.fault := rfl
@[simp] theorem loadIter_resp (v : Word) (s : State) : (loadIter v s).resp = s.resp := rfl
@[simp] theorem loadIter_moves (v : Word) (s : State) : (loadIter v s).moves = s.moves := rfl
@[simp] theorem loadIter_freeTurns (v : Word) (s : State) : (loadIter v s).freeTurns = s.freeTurns := rfl

@[simp] theorem loadMsrem_cfg (v : Word) (s : State) : (loadMsrem v s).cfg = s.cfg := rfl
@[simp] theorem loadMsrem_ovrf (v : Word) (s : State) : (loadMsrem v s).ovrf = s.ovrf := rfl
@[simp] theorem loadMsrem_ovp (v : Word) (s : State) : (loadMsrem v s).ovp = s.ovp := rfl
@[simp] theorem loadMsrem_ie (v : Word) (s : State) : (loadMsrem v s).ie = s.ie := rfl
@[simp] theorem loadMsrem_iesave (v : Word) (s : State) : (loadMsrem v s).iesave = s.iesave := rfl
@[simp] theorem loadMsrem_snap (v : Word) (s : State) : (loadMsrem v s).snap = s.snap := rfl
@[simp] theorem loadMsrem_arg (v : Word) (s : State) : (loadMsrem v s).arg = s.arg := rfl
@[simp] theorem loadMsrem_iter (v : Word) (s : State) : (loadMsrem v s).iter = s.iter := rfl
@[simp] theorem loadMsrem_msrem (v : Word) (s : State) : (loadMsrem v s).msrem = v := rfl
@[simp] theorem loadMsrem_busy (v : Word) (s : State) : (loadMsrem v s).busy = s.busy := rfl
@[simp] theorem loadMsrem_opc (v : Word) (s : State) : (loadMsrem v s).opc = s.opc := rfl
@[simp] theorem loadMsrem_ph (v : Word) (s : State) : (loadMsrem v s).ph = s.ph := rfl
@[simp] theorem loadMsrem_fault (v : Word) (s : State) : (loadMsrem v s).fault = s.fault := rfl
@[simp] theorem loadMsrem_resp (v : Word) (s : State) : (loadMsrem v s).resp = s.resp := rfl
@[simp] theorem loadMsrem_moves (v : Word) (s : State) : (loadMsrem v s).moves = s.moves := rfl
@[simp] theorem loadMsrem_freeTurns (v : Word) (s : State) : (loadMsrem v s).freeTurns = s.freeTurns := rfl

@[simp] theorem clearRegisters_cfg (s : State) : (clearRegisters s).cfg = s.cfg := rfl
@[simp] theorem clearRegisters_ovrf (s : State) : (clearRegisters s).ovrf = 0 := rfl
@[simp] theorem clearRegisters_ovp (s : State) : (clearRegisters s).ovp = false := rfl
@[simp] theorem clearRegisters_ie (s : State) : (clearRegisters s).ie = false := rfl
@[simp] theorem clearRegisters_iesave (s : State) : (clearRegisters s).iesave = false := rfl
@[simp] theorem clearRegisters_snap (s : State) : (clearRegisters s).snap = 0 := rfl
@[simp] theorem clearRegisters_arg (s : State) : (clearRegisters s).arg = 0 := rfl
@[simp] theorem clearRegisters_iter (s : State) : (clearRegisters s).iter = 0 := rfl
@[simp] theorem clearRegisters_msrem (s : State) : (clearRegisters s).msrem = 0 := rfl
@[simp] theorem clearRegisters_busy (s : State) : (clearRegisters s).busy = false := rfl
@[simp] theorem clearRegisters_opc (s : State) : (clearRegisters s).opc = 0 := rfl
@[simp] theorem clearRegisters_ph (s : State) : (clearRegisters s).ph = 0 := rfl
@[simp] theorem clearRegisters_fault (s : State) : (clearRegisters s).fault = false := rfl
@[simp] theorem clearRegisters_resp (s : State) : (clearRegisters s).resp = s.resp := rfl
@[simp] theorem clearRegisters_moves (s : State) : (clearRegisters s).moves = s.moves := rfl
@[simp] theorem clearRegisters_freeTurns (s : State) : (clearRegisters s).freeTurns = s.freeTurns := rfl

@[simp] theorem afterTurn_cfg (s : State) : s.afterTurn.cfg = s.cfg := by
  unfold State.afterTurn; split <;> rfl
@[simp] theorem afterTurn_ovrf (s : State) : s.afterTurn.ovrf = s.ovrf := by
  unfold State.afterTurn; split <;> rfl
@[simp] theorem afterTurn_ovp (s : State) : s.afterTurn.ovp = s.ovp := by
  unfold State.afterTurn; split <;> rfl
@[simp] theorem afterTurn_ie (s : State) : s.afterTurn.ie = s.ie := by
  unfold State.afterTurn; split <;> rfl
@[simp] theorem afterTurn_iesave (s : State) : s.afterTurn.iesave = s.iesave := by
  unfold State.afterTurn; split <;> rfl
@[simp] theorem afterTurn_snap (s : State) : s.afterTurn.snap = s.snap := by
  unfold State.afterTurn; split <;> rfl
@[simp] theorem afterTurn_arg (s : State) : s.afterTurn.arg = s.arg := by
  unfold State.afterTurn; split <;> rfl
@[simp] theorem afterTurn_iter (s : State) : s.afterTurn.iter = s.iter := by
  unfold State.afterTurn; split <;> rfl
@[simp] theorem afterTurn_msrem (s : State) : s.afterTurn.msrem = s.msrem := by
  unfold State.afterTurn; split <;> rfl
@[simp] theorem afterTurn_busy (s : State) : s.afterTurn.busy = s.busy := by
  unfold State.afterTurn; split <;> rfl
@[simp] theorem afterTurn_opc (s : State) : s.afterTurn.opc = s.opc := by
  unfold State.afterTurn; split <;> rfl
@[simp] theorem afterTurn_ph (s : State) : s.afterTurn.ph = s.ph := by
  unfold State.afterTurn; split <;> rfl
@[simp] theorem afterTurn_fault (s : State) : s.afterTurn.fault = s.fault := by
  unfold State.afterTurn; split <;> rfl
@[simp] theorem afterTurn_resp (s : State) : s.afterTurn.resp = none := by
  unfold State.afterTurn; split <;> rfl

@[simp] theorem nextMove_cons (s : State) (m : Move) (ms : List Move) :
    ({ s with moves := m :: ms } : State).nextMove = m := rfl

@[simp] theorem afterTurn_cons (s : State) (m : Move) (ms : List Move) :
    ({ s with moves := m :: ms } : State).afterTurn = { s with resp := none, moves := ms } := rfl

/-- The state a presented word is issued in, and the move that issues it. -/
theorem present_spec (w : CmdWord) (s : State) :
    (s.present w).nextMove = .issue w ∧ (s.present w).afterTurn = { s with busy := false, ph := 0, resp := none } :=
  ⟨rfl, rfl⟩

end Sys2Proof.Machine
end

