-- ==== Sys2Proof/Laws/Step.lean ====
section
/-! SUPPORT. What each shared operation, each command and each move can do, said once: later proofs cite these lemmas and
unfold nothing. -/

namespace Sys2Proof.Machine

/-- The phase a command runs when it is in progress. -/
def phaseOf (i : Instr) (s : State) : Result :=
  match i with
  | .nop => onePhase (done 0) s
  | .rdst => onePhase (fun t => done (statusWord t) t) s
  | .ieget => onePhase (fun t => done (flagWord t.ie) t) s
  | .ieset _ => onePhase (fun t => done 0 (setIe (argBit t) t)) s
  | .rdb0 => readByte 0 s
  | .rdb1 => readByte 1 s
  | .rdb2 => readByte 2 s
  | .rdb3 => readByte 3 s
  | .rdms => maskedScale s.cfg.kms s.cfg.sms s
  | .rdus => maskedScale s.cfg.kus s.cfg.sus s
  | .rlms _ => onePhase (fun t => done (realTicks t.cfg.nms t.arg) t) s
  | .rlus _ => onePhase (fun t => done (realTicks t.cfg.nus t.arg) t) s
  | .dlyus _ => delayMicros s
  | .dlyms _ => delayMillis s

/-- Every command is its phase in the shared frame. -/
theorem exec_eq (i : Instr) (s : State) : exec i s = runCommand i (phaseOf i) s := by cases i <;> rfl

theorem runCommand_idle {s : State} (h : s.busy = false) (i : Instr) (f : State → Result) :
    runCommand i f s = .next (issue i s) := by simp [runCommand, h]

theorem runCommand_busy {s : State} {i : Instr} (h : s.busy = true) (hp : i.presentIn s.cfg.tben = true)
    (f : State → Result) : runCommand i f s = f s := by simp [runCommand, h, hp]

theorem runCommand_absent {s : State} {i : Instr} (h : s.busy = true) (hp : i.presentIn s.cfg.tben = false)
    (f : State → Result) : runCommand i f s = .fault .stuckAbsent := by simp [runCommand, h, hp]

/-- From an idle TBU a command is issued. -/
theorem exec_idle {s : State} (h : s.busy = false) (i : Instr) : exec i s = .next (issue i s) := by
  rw [exec_eq, runCommand_idle h]

/-- In a busy TBU a command of the build runs its phase. -/
theorem exec_busy {s : State} {i : Instr} (h : s.busy = true) (hp : i.presentIn s.cfg.tben = true) :
    exec i s = phaseOf i s := by rw [exec_eq, runCommand_busy h hp]

theorem issue_present {s : State} {i : Instr} (hp : i.presentIn s.cfg.tben = true) : issue i s = accept i s := by
  simp [issue, hp]

theorem issue_absent {s : State} {i : Instr} (hp : i.presentIn s.cfg.tben = false) : issue i s = raise .absent s := by
  simp [issue, hp]

/-- A busy command answers next only through its phase, and it is then present in the build. -/
theorem exec_busy_next {s t : State} {i : Instr} (h : s.busy = true) (he : exec i s = .next t) :
    i.presentIn s.cfg.tben = true ∧ phaseOf i s = .next t := by
  rw [exec_eq] at he
  cases hp : i.presentIn s.cfg.tben
  · rw [runCommand_absent h hp] at he; cases he
  · rw [runCommand_busy h hp] at he; exact ⟨rfl, he⟩

theorem onePhase_next {f : State → State} {s t : State} : onePhase f s = .next t ↔ s.ph = 0 ∧ t = f s := by
  unfold onePhase
  split
  · exact ⟨fun h => ⟨‹_›, (Host.Outcome.next.inj h).symm⟩, fun h => congrArg _ h.2.symm⟩
  · exact ⟨fun h => (nomatch h), fun h => absurd h.1 ‹_›⟩

/-- The six ways a masked read goes on (R113). -/
theorem maskedScale_next {K S : Word} {s t : State} (h : maskedScale K S s = .next t) :
    (s.ph = 0 ∧ t = goto 1 (saveAndMask s)) ∨
    (∃ k : Fin 4, s.ph = BitVec.ofNat 3 (k.val + 1) ∧ t = goto (BitVec.ofNat 3 (k.val + 2)) (copyByte k s)) ∨
    (s.ph = 5 ∧ t = done (scale K S s.snap) (restoreIe s)) := by
  unfold maskedScale at h
  split at h <;> cases h <;> rename_i hp
  · exact .inl ⟨BitVec.eq_of_toNat_eq hp, rfl⟩
  · exact .inr (.inl ⟨0, BitVec.eq_of_toNat_eq hp, rfl⟩)
  · exact .inr (.inl ⟨1, BitVec.eq_of_toNat_eq hp, rfl⟩)
  · exact .inr (.inl ⟨2, BitVec.eq_of_toNat_eq hp, rfl⟩)
  · exact .inr (.inl ⟨3, BitVec.eq_of_toNat_eq hp, rfl⟩)
  · exact .inr (.inr ⟨BitVec.eq_of_toNat_eq hp, rfl⟩)

/-- One loop step: an iteration, or the exit (R133). -/
theorem loopStep_cases (exit : State → State) (s : State) :
    (s.iter = 0 ∧ loopStep exit s = exit s) ∨ (s.iter ≠ 0 ∧ loopStep exit s = loadIter (s.iter - 1) s) := by
  unfold loopStep
  split
  · exact .inl ⟨‹_›, rfl⟩
  · exact .inr ⟨‹_›, rfl⟩

/-- The start of a delay: at once, or into the loop (R131). -/
theorem startDelay_cases (request : Nat) (us : BitVec 16) (early : State → State) (loop : BitVec 3) (s : State) :
    (request ≤ s.cfg.min.toNat ∧ startDelay request us early loop s = early s) ∨
    (s.cfg.min.toNat < request ∧ startDelay request us early loop s = goto loop (loadIter (s.cfg.iters us) s)) := by
  unfold startDelay; split
  · exact .inl ⟨‹_›, rfl⟩
  · exact .inr ⟨Nat.lt_of_not_le ‹_›, rfl⟩

/-- The ways a microsecond delay goes on (R131 to R133). -/
theorem delayMicros_next {s t : State} (h : delayMicros s = .next t) :
    (s.ph = 0 ∧ s.arg.toNat ≤ s.cfg.min.toNat ∧ t = done 0 s) ∨
    (s.ph = 0 ∧ s.cfg.min.toNat < s.arg.toNat ∧ t = goto 1 (loadIter (s.cfg.iters (argMicros s)) s)) ∨
    (s.ph = 1 ∧ s.iter = 0 ∧ t = done 0 s) ∨
    (s.ph = 1 ∧ s.iter ≠ 0 ∧ t = loadIter (s.iter - 1) s) := by
  unfold delayMicros at h
  split at h <;> cases h <;> rename_i hp
  · have hp : s.ph = 0 := BitVec.eq_of_toNat_eq hp
    obtain ⟨hr, e⟩ | ⟨hr, e⟩ := startDelay_cases s.arg.toNat (argMicros s) (done 0) 1 s
    · exact .inl ⟨hp, hr, e⟩
    · exact .inr (.inl ⟨hp, hr, e⟩)
  · have hp : s.ph = 1 := BitVec.eq_of_toNat_eq hp
    obtain ⟨hr, e⟩ | ⟨hr, e⟩ := loopStep_cases (done 0) s
    · exact .inr (.inr (.inl ⟨hp, hr, e⟩))
    · exact .inr (.inr (.inr ⟨hp, hr, e⟩))

/-- The ways a millisecond delay goes on (R134). -/
theorem delayMillis_next {s t : State} (h : delayMillis s = .next t) :
    (s.ph = 0 ∧ t = goto 1 (loadMsrem s.arg s)) ∨
    (s.ph = 1 ∧ s.msrem = 0 ∧ t = done 0 s) ∨
    (s.ph = 1 ∧ s.msrem ≠ 0 ∧ 1000 ≤ s.cfg.min.toNat ∧ t = goto 1 (loadMsrem (s.msrem - 1) s)) ∨
    (s.ph = 1 ∧ s.msrem ≠ 0 ∧ s.cfg.min.toNat < 1000 ∧
      t = goto 2 (loadIter (s.cfg.iters 1000) (loadMsrem (s.msrem - 1) s))) ∨
    (s.ph = 2 ∧ s.iter = 0 ∧ t = goto 1 s) ∨
    (s.ph = 2 ∧ s.iter ≠ 0 ∧ t = loadIter (s.iter - 1) s) := by
  unfold delayMillis at h
  split at h <;> cases h <;> rename_i hp
  · exact .inl ⟨BitVec.eq_of_toNat_eq hp, rfl⟩
  · have hp : s.ph = 1 := BitVec.eq_of_toNat_eq hp
    split
    · exact .inr (.inl ⟨hp, ‹_›, rfl⟩)
    · obtain ⟨hr, e⟩ | ⟨hr, e⟩ := startDelay_cases 1000 1000 (goto 1) 2 (loadMsrem (s.msrem - 1) s)
      · exact .inr (.inr (.inl ⟨hp, ‹_›, hr, e⟩))
      · exact .inr (.inr (.inr (.inl ⟨hp, ‹_›, hr, e⟩)))
  · have hp : s.ph = 2 := BitVec.eq_of_toNat_eq hp
    obtain ⟨hr, e⟩ | ⟨hr, e⟩ := loopStep_cases (goto 1) s
    · exact .inr (.inr (.inr (.inr (.inl ⟨hp, hr, e⟩))))
    · exact .inr (.inr (.inr (.inr (.inr ⟨hp, hr, e⟩))))

/-- Which commands have the one phase that only responds. -/
def onlyResponds : Instr → Bool
  | .nop => true
  | .rdst => true
  | .ieget => true
  | .ieset _ => false
  | .rdb0 => true
  | .rdb1 => true
  | .rdb2 => true
  | .rdb3 => true
  | .rdms => false
  | .rdus => false
  | .rlms _ => true
  | .rlus _ => true
  | .dlyus _ => false
  | .dlyms _ => false

/-- What the phase of any command can do: respond and no more, write `IE`, or go on as its own lemma says. -/
theorem phaseOf_next {i : Instr} {s t : State} (h : phaseOf i s = .next t) :
    (onlyResponds i = true ∧ s.ph = 0 ∧ ∃ v, t = done v s) ∨
    ((∃ b, i = .ieset b) ∧ s.ph = 0 ∧ t = done 0 (setIe (argBit s) s)) ∨
    (i = .rdms ∧ maskedScale s.cfg.kms s.cfg.sms s = .next t) ∨
    (i = .rdus ∧ maskedScale s.cfg.kus s.cfg.sus s = .next t) ∨
    ((∃ us, i = .dlyus us) ∧ delayMicros s = .next t) ∨
    ((∃ ms, i = .dlyms ms) ∧ delayMillis s = .next t) := by
  cases i with
  | ieset b =>
    obtain ⟨hp, e⟩ := (onePhase_next (f := fun t => done 0 (setIe (argBit t) t))).mp h
    exact .inr (.inl ⟨⟨b, rfl⟩, hp, e⟩)
  | rlms n =>
    obtain ⟨hp, e⟩ := (onePhase_next (f := fun t => done (realTicks t.cfg.nms t.arg) t)).mp h
    exact .inl ⟨rfl, hp, _, e⟩
  | rlus n =>
    obtain ⟨hp, e⟩ := (onePhase_next (f := fun t => done (realTicks t.cfg.nus t.arg) t)).mp h
    exact .inl ⟨rfl, hp, _, e⟩
  | rdms => exact .inr (.inr (.inl ⟨rfl, h⟩))
  | rdus => exact .inr (.inr (.inr (.inl ⟨rfl, h⟩)))
  | dlyus us => exact .inr (.inr (.inr (.inr (.inl ⟨⟨us, rfl⟩, h⟩))))
  | dlyms ms => exact .inr (.inr (.inr (.inr (.inr ⟨⟨ms, rfl⟩, h⟩))))
  | _ => exact .inl ⟨rfl, (onePhase_next.mp h).1, _, (onePhase_next.mp h).2⟩

/-- What a SEQ turn can do: pass, or run the phase of the command `OPC` names. -/
theorem stepSeq_next {s t : State} (h : stepSeq s = .next t) :
    (s.busy = false ∧ t = s) ∨
    (s.busy = true ∧ ∃ i, instrOfOpc s.opc s.arg = some i ∧ i.presentIn s.cfg.tben = true ∧ phaseOf i s = .next t) := by
  unfold stepSeq at h
  cases hb : s.busy
  · simp [hb] at h; exact .inl ⟨rfl, h.symm⟩
  · simp only [hb, if_true] at h
    split at h
    · rename_i i hi
      exact .inr ⟨rfl, i, hi, exec_busy_next hb h⟩
    · cases h

/-- What an ISSUE turn can do: pass while busy, refuse a word, or accept it. -/
theorem stepIssue_cases (w : CmdWord) (s : State) :
    (s.busy = true ∧ stepIssue w s = .next s) ∨
    (s.busy = false ∧ (∃ e, decode w = .error e) ∧ stepIssue w s = .next (raise .illegal s)) ∨
    (s.busy = false ∧ ∃ i, decode w = .ok i ∧ i.presentIn s.cfg.tben = false ∧ stepIssue w s = .next (raise .absent s)) ∨
    (s.busy = false ∧ ∃ i, decode w = .ok i ∧ i.presentIn s.cfg.tben = true ∧ stepIssue w s = .next (accept i s)) := by
  unfold stepIssue
  cases hb : s.busy
  · cases hd : decode w with
    | error e => simp
    | ok i =>
      cases hp : i.presentIn s.cfg.tben
      · simp [exec_idle hb, issue_absent hp, hp]
      · simp [exec_idle hb, issue_present hp, hp]
  · simp

/-- One step is the next move, carried out on the state whose move is used up. -/
theorem step_eq (s : State) : step s = runMove s.nextMove s.afterTurn := rfl

/-- No phase of a command writes the counter, the pending flag, the fault flag, the latches, the configuration or the
environment. -/
theorem phaseOf_keeps {i : Instr} {s t : State} (h : phaseOf i s = .next t) :
    t.cfg = s.cfg ∧ t.ovrf = s.ovrf ∧ t.ovp = s.ovp ∧ t.fault = s.fault ∧ t.opc = s.opc ∧ t.arg = s.arg ∧
      t.moves = s.moves ∧ t.freeTurns = s.freeTurns := by
  obtain ⟨-, -, v, rfl⟩ | ⟨-, -, rfl⟩ | ⟨-, e⟩ | ⟨-, e⟩ | ⟨-, e⟩ | ⟨-, e⟩ := phaseOf_next h
  · simp
  · simp
  · obtain ⟨-, rfl⟩ | ⟨k, -, rfl⟩ | ⟨-, rfl⟩ := maskedScale_next e <;> simp
  · obtain ⟨-, rfl⟩ | ⟨k, -, rfl⟩ | ⟨-, rfl⟩ := maskedScale_next e <;> simp
  · obtain ⟨-, -, rfl⟩ | ⟨-, -, rfl⟩ | ⟨-, -, rfl⟩ | ⟨-, -, rfl⟩ := delayMicros_next e <;> simp
  · obtain ⟨-, rfl⟩ | ⟨-, -, rfl⟩ | ⟨-, -, -, rfl⟩ | ⟨-, -, -, rfl⟩ | ⟨-, -, rfl⟩ | ⟨-, -, rfl⟩ := delayMillis_next e <;> simp

/-- No step uses up more than its move, and none writes the configuration. -/
theorem step_keeps {s t : State} (h : step s = .next t) :
    t.cfg = s.cfg ∧ t.moves = s.afterTurn.moves ∧ t.freeTurns = s.afterTurn.freeTurns := by
  rw [step_eq] at h
  cases hm : s.nextMove with
  | ev => rw [hm] at h; cases h; simp
  | inc => rw [hm] at h; cases h; split <;> simp
  | issue w =>
    rw [hm] at h
    obtain ⟨-, e⟩ | ⟨-, -, e⟩ | ⟨-, i, -, -, e⟩ | ⟨-, i, -, -, e⟩ := stepIssue_cases w s.afterTurn <;>
      (cases e.symm.trans h; simp)
  | seq =>
    rw [hm] at h
    obtain ⟨-, rfl⟩ | ⟨-, i, -, -, e⟩ := stepSeq_next h
    · simp
    · obtain ⟨h1, -, -, -, -, -, h7, h8⟩ := phaseOf_keeps e
      exact ⟨by simpa using h1, h7, h8⟩
  | reset => rw [hm] at h; cases h; simp

end Sys2Proof.Machine
end

