-- ==== Sys2Proof/Laws/Run.lean ====
section
/-! SUPPORT. Runs: a run is its first step and the rest, and two runs in succession are one. -/

namespace Sys2Proof.Machine

/-- What follows a result: the run goes on from a next state and stops with anything else. -/
def Result.andThen (r : Result) (f : State → Result) : Result :=
  match r with
  | .next t => f t
  | .fault e => .fault e
  | .refused e => .refused e

@[simp] theorem andThen_next (t : State) (f : State → Result) : Result.andThen (.next t) f = f t := rfl

theorem andThen_eq_next {r : Result} {f : State → Result} {t : State} :
    r.andThen f = .next t ↔ ∃ u, r = .next u ∧ f u = .next t := by
  cases r with
  | next u => exact ⟨fun h => ⟨u, rfl, h⟩, fun ⟨_, e, h⟩ => by cases e; exact h⟩
  | fault e => exact ⟨fun h => (nomatch h), fun ⟨_, h, _⟩ => (nomatch h)⟩
  | refused e => exact ⟨fun h => (nomatch h), fun ⟨_, h, _⟩ => (nomatch h)⟩

/-- The step of a move acts on the state whose response pulse is over. -/
theorem stepWith_eq (m : Move) (s : State) : stepWith m s = runMove m { s with resp := none, moves := [] } := rfl

@[simp] theorem runMoves_nil (s : State) : runMoves [] s = .next s := rfl

/-- A run is its first step, then the rest. -/
theorem runMoves_cons (m : Move) (ms : List Move) (s : State) :
    runMoves (m :: ms) s = (stepWith m s).andThen (runMoves ms) := by
  rw [runMoves]
  cases stepWith m s <;> rfl

/-- Two schedules in succession are two runs in succession. -/
theorem runMoves_append (ms ns : List Move) (s : State) :
    runMoves (ms ++ ns) s = (runMoves ms s).andThen (runMoves ns) := by
  induction ms generalizing s with
  | nil => rfl
  | cons m ms ih =>
    rw [List.cons_append, runMoves_cons, runMoves_cons]
    cases stepWith m s with
    | next t => exact ih t
    | fault e => rfl
    | refused e => rfl

/-- A run that goes on after its first step. -/
theorem runMoves_cons_next {m : Move} {ms : List Move} {s t : State} :
    runMoves (m :: ms) s = .next t ↔ ∃ u, stepWith m s = .next u ∧ runMoves ms u = .next t := by
  rw [runMoves_cons, andThen_eq_next]

theorem runMoves_append_next {ms ns : List Move} {s t : State} :
    runMoves (ms ++ ns) s = .next t ↔ ∃ u, runMoves ms s = .next u ∧ runMoves ns u = .next t := by
  rw [runMoves_append, andThen_eq_next]

/-- What holds at the start and is kept by every step of a schedule's moves holds at the end. -/
theorem runMoves_induction {P : State → Prop} {ms : List Move}
    (hstep : ∀ m ∈ ms, ∀ s t, P s → stepWith m s = .next t → P t) {s t : State} (hs : P s)
    (h : runMoves ms s = .next t) : P t := by
  induction ms generalizing s with
  | nil => cases h; exact hs
  | cons m ms ih =>
    obtain ⟨u, hu, ht⟩ := runMoves_cons_next.mp h
    exact ih (fun k hk => hstep k (List.mem_cons_of_mem m hk)) (hstep m List.mem_cons_self s u hs hu) ht

@[simp] theorem responses_nil (s : State) : responses [] s = [] := rfl

theorem responses_cons {m : Move} {ms : List Move} {s t : State} (h : stepWith m s = .next t) :
    responses (m :: ms) s = t.resp.toList ++ responses ms t := by rw [responses, h]

/-- The responses of two runs in succession. -/
theorem responses_append {ms ns : List Move} {s t : State} (h : runMoves ms s = .next t) :
    responses (ms ++ ns) s = responses ms s ++ responses ns t := by
  induction ms generalizing s with
  | nil => cases h; rfl
  | cons m ms ih =>
    obtain ⟨u, hu, ht⟩ := runMoves_cons_next.mp h
    rw [List.cons_append, responses_cons hu, responses_cons hu, ih ht, List.append_assoc]

theorem incSteps_cons {m : Move} {ms : List Move} {s t : State} (h : stepWith m s = .next t) :
    incSteps (m :: ms) s = (if m = .inc ∧ incEnabled s = true then 1 else 0) + incSteps ms t := by
  rw [incSteps, h]

@[simp] theorem runUntil_zero (σ : Nat → Move) (s : State) : runUntil σ s 0 = .next s := rfl

/-- The first `n + 1` moves of an endless schedule are its first `n` and one step. -/
theorem runUntil_succ (σ : Nat → Move) (s : State) (n : Nat) :
    runUntil σ s (n + 1) = (runUntil σ s n).andThen (stepWith (σ n)) := by
  rw [runUntil, List.range_succ, List.map_append, runMoves_append, runUntil]
  cases runMoves ((List.range n).map σ) s with
  | next t =>
    rw [andThen_next, andThen_next, List.map_cons, List.map_nil, runMoves_cons]
    cases stepWith (σ n) t <;> rfl
  | fault e => rfl
  | refused e => rfl

@[simp] theorem issuedWords_nil : issuedWords [] = [] := rfl

@[simp] theorem issuedWords_issue (w : CmdWord) (ms : List Move) :
    issuedWords (.issue w :: ms) = w :: issuedWords ms := rfl

@[simp] theorem issuedWords_append (ms ns : List Move) : issuedWords (ms ++ ns) = issuedWords ms ++ issuedWords ns :=
  List.filterMap_append

/-- A schedule in which no command is issued has no words. -/
theorem issuedWords_undisturbed {ms : List Move} (h : undisturbed ms) : issuedWords ms = [] := by
  rw [issuedWords, List.filterMap_eq_nil_iff]
  intro m hm
  obtain rfl | rfl | rfl := h m hm <;> rfl

end Sys2Proof.Machine
end

