-- ==== Sys2Proof/Tests/Slice0.lean ====
section
/-! SUPPORT. The model's own tests: expected results are those the spec prints in 95_test_vectors.md (sections named), and
for every obligation with hypotheses a concrete state and operands that meet them. -/

namespace Sys2Proof.Tests

open Sys2Proof.Machine

/-- A TBU built with CFG-A, right after reset. -/
def tbu : State := State.boot { cfg := Config.exampleA, wf := Config.exampleA_wf }

/-- The same machine state over another well-formed record. -/
def overCfg (c : Cfg) (h : c.WF) (s : State) : State := { s with cfg := c, wf := h }

/-- CFG-A without a timebase, as CFG-C. -/
theorem bare_wf : ({ Config.exampleA with tben := false } : Cfg).WF where
  w1 := by decide
  w2 := List.mem_cons_self
  w3 := by decide
  w4 := by decide
  w5 := fun h => nomatch h
  w6 := fun h => nomatch h
  w7 := fun h => nomatch h
  w8 := by decide
  w9 := Config.exampleA_wf.w9

/-- CFG-A with its delay constants named as the calibrated set. -/
theorem calibrated_wf : ({ Config.exampleA with dcal := true } : Cfg).WF :=
  ⟨Config.exampleA_wf.w1, Config.exampleA_wf.w2, Config.exampleA_wf.w3, Config.exampleA_wf.w4, Config.exampleA_wf.w5,
    Config.exampleA_wf.w6, Config.exampleA_wf.w7, fun _ => rfl, Config.exampleA_wf.w9⟩

/-- Section 2.4's delay constants with a threshold above 1000, beside CFG-A's clock. -/
def slow : Cfg := { Config.exampleA with kd := 0, sd := 0x400, ovh := 0, min := 1023 }

theorem slow_wf : slow.WF where
  w1 := Config.exampleA_wf.w1
  w2 := Config.exampleA_wf.w2
  w3 := Config.exampleA_wf.w3
  w4 := by decide
  w5 := Config.exampleA_wf.w5
  w6 := Config.exampleA_wf.w6
  w7 := Config.exampleA_wf.w7
  w8 := Config.exampleA_wf.w8
  w9 := by
    intro us h
    have hs : shiftAmounts 0x400 = [10] := by decide
    change 1023 < us.toNat at h
    change 0 < 0 * us.toNat + shiftSum 0x400 us.toNat
    rw [shiftSum, hs]
    simp only [List.map_cons, List.map_nil, List.sum_cons, List.sum_nil, shr]
    omega

/-- A TBU without a timebase, right after reset. -/
def bare : State := overCfg _ bare_wf tbu

/-- A command in progress at a phase. -/
def busyAt (opc : BitVec 8) (ph : BitVec 3) (s : State) : State := { s with busy := true, opc := opc, ph := ph }

/-- The environment's next move is `m`. -/
def facing (m : Move) (s : State) : State := { s with moves := [m] }

/-- What one step shows of a state: `none` where the machine stopped. -/
def view {α : Type} (f : State → α) (r : Result) : Option α :=
  match r with
  | .next t => some (f t)
  | .fault _ => none
  | .refused _ => none

/-- The response of one step as (status, value). -/
def reply (r : Result) : Option (Nat × Nat) :=
  match view State.resp r with
  | some (some w) => some ((respStatus w).toNat, (respValue w).toNat)
  | _ => none

/-! ### WellFormed: for each check a record it refuses -/

theorem test_w1_refuses : ¬({ Config.exampleA with presc := 16 } : Cfg).WF := fun h => absurd h.w1 (by decide)

theorem test_w2_refuses : ¬({ Config.exampleA with presc := 16 } : Cfg).W2 := by
  intro h
  rcases List.mem_cons.mp h with e | h
  · cases e
  · rcases List.mem_cons.mp h with e | h
    · have hi : Config.presc16k ∈ [1, 8, 64] := by
        unfold Config.presc16k
        generalize Config.index16k = k
        revert k; decide
      have e : 16 = Config.presc16k := congrArg Prod.snd e
      rw [← e] at hi
      exact absurd hi (by decide)
    · exact absurd (List.mem_filter.mp h).2 (by decide)

theorem test_w3_refuses : ¬({ Config.exampleA with ppmMs := 1000001 } : Cfg).WF :=
  fun h => absurd (h.w3 rfl) (by decide)

theorem test_w4_refuses : ¬({ Config.exampleA with sd := 1 } : Cfg).WF := fun h => absurd h.w4 (by decide)

theorem test_w5_refuses : ¬({ Config.exampleA with kms := 3 } : Cfg).WF := fun h => absurd h.w5 (by decide +kernel)

theorem test_w6_refuses : ¬({ Config.exampleA with ppmMs := 100 } : Cfg).WF := fun h => absurd h.w6 (by decide +kernel)

theorem test_w7_refuses : ¬({ Config.exampleA with nms := 999451 } : Cfg).WF := fun h => absurd h.w7 (by decide +kernel)

theorem test_w8_refuses : ¬({ Config.exampleA with tben := false, dcal := true } : Cfg).WF :=
  fun h => absurd h.w8 (by decide)

theorem test_w9_refuses : ¬({ Config.exampleA with min := 1 } : Cfg).WF :=
  fun h => absurd (h.w9 2 (by decide)) (by decide)

theorem test_absent_command_refused : Instr.presentIn false .rdms = false ∧ Instr.presentIn false (.dlyus 3) = true := by
  decide

/-! ### Decoding, section 2.1: words written out from R71 and R73 -/

theorem test_decode_control :
    decode 0x0000000000 = .ok .nop ∧ decode 0x0100000000 = .ok .rdst ∧ decode 0x0200000000 = .ok .ieget ∧
    decode 0x0300000000 = .ok (.ieset 0) ∧ decode 0x0300000001 = .ok (.ieset 1) := by decide

theorem test_decode_bytes :
    decode 0x1000000000 = .ok .rdb0 ∧ decode 0x1100000000 = .ok .rdb1 ∧ decode 0x1200000000 = .ok .rdb2 ∧
    decode 0x1300000000 = .ok .rdb3 := by decide

theorem test_decode_scaler :
    decode 0x2000000000 = .ok .rdms ∧ decode 0x2100000000 = .ok .rdus ∧ decode 0x22000003E8 = .ok (.rlms 1000) ∧
    decode 0x22FFFFFFFF = .ok (.rlms 4294967295) ∧ decode 0x23000F4240 = .ok (.rlus 1000000) := by decide

theorem test_decode_delay :
    decode 0x3000000064 = .ok (.dlyus 100) ∧ decode 0x300000FFFF = .ok (.dlyus 65535) ∧
    decode 0x3100000003 = .ok (.dlyms 3) ∧ decode 0x31FFFFFFFF = .ok (.dlyms 4294967295) := by decide

theorem test_decode_rejects :
    [0x0000000001, 0x0300000002, 0x0380000001, 0x1300000100, 0x2100000001, 0x3000010000].all
      (fun w => decide (decode w = .error .reservedOperandBits)) = true ∧
    [0x0400000000, 0x0F00000000, 0x1400000000, 0x2400000000, 0x3200000000, 0xFFFFFFFFFF].all
      (fun w => decide (decode w = .error .unassignedOpcode)) = true := by decide

theorem test_table_word : decodeTableWord 40 0x22000003E8 = some (.rlms 1000) ∧ decodeTableWord 40 0x3200000000 = none := by
  decide

/-! ### ISSUE and the faults, section 2.1 -/

theorem test_issue_latches :
    view (fun t => (t.busy, t.opc, t.arg, t.ph, t.resp)) (step (tbu.withFetchWord 40 0x22000003E8)) =
      some (true, 0x22, 1000, 0, none) := by decide

theorem test_issue_illegal :
    reply (step (tbu.withFetchWord 40 0x0400000000)) = some (1, 0) ∧
    view (fun t => (t.fault, t.busy, t.opc, t.arg)) (step (tbu.withFetchWord 40 0x0400000000)) =
      some (true, false, 0, 0) := by decide

theorem test_issue_absent : reply (step (bare.withFetchWord 40 0x1000000000)) = some (2, 0) := by decide

theorem test_illegal_before_absent : reply (step (bare.withFetchWord 40 0x1300000100)) = some (1, 0) := by decide

/-! ### One step of each command, sections 2.2 to 2.5 -/

theorem test_nop : reply (exec .nop (busyAt 0x00 0 tbu)) = some (0, 0) := by decide

theorem test_rdst :
    reply (exec .rdst (busyAt 0x01 0 tbu)) = some (0, 0x08) ∧
    reply (exec .rdst (busyAt 0x01 0
      { overCfg _ calibrated_wf tbu with ie := true, ovp := true, fault := true })) =
      some (0, 0x1F) := by decide

theorem test_ieget :
    reply (exec .ieget (busyAt 0x02 0 tbu)) = some (0, 0) ∧
    reply (exec .ieget (busyAt 0x02 0 { tbu with ie := true })) = some (0, 1) := by decide

theorem test_ieset :
    view State.ie (exec (.ieset 1) (busyAt 0x03 0 { tbu with arg := 1 })) = some true ∧
    view State.ie (exec (.ieset 0) (busyAt 0x03 0 { tbu with ie := true })) = some false := by decide

theorem test_rdb0 : reply (exec .rdb0 (busyAt 0x10 0 { tbu with ovrf := 0x123456FF })) = some (0, 0xFF) := by decide

theorem test_rdb1 : reply (exec .rdb1 (busyAt 0x11 0 { tbu with ovrf := 0x123456FF })) = some (0, 0x56) := by decide

theorem test_rdb2 : reply (exec .rdb2 (busyAt 0x12 0 { tbu with ovrf := 0x123456FF })) = some (0, 0x34) := by decide

theorem test_rdb3 : reply (exec .rdb3 (busyAt 0x13 0 { tbu with ovrf := 0x123456FF })) = some (0, 0x12) := by decide

theorem test_rdms :
    reply (exec .rdms (busyAt 0x20 5 { tbu with snap := 1000, iesave := true })) = some (0, 2046) ∧
    view State.ie (exec .rdms (busyAt 0x20 5 { tbu with snap := 1000, iesave := true })) = some true := by decide

theorem test_rdms_copies_byte :
    view State.snap (exec .rdms (busyAt 0x20 2 { tbu with ovrf := 0x123456FF, snap := 0xAABBCCDD })) =
      some 0xAABB56DD := by decide

theorem test_rdus : reply (exec .rdus (busyAt 0x21 5 { tbu with snap := 1001 })) = some (0, 2050048) := by decide

theorem test_rlms : reply (exec (.rlms 1000) (busyAt 0x22 0 { tbu with arg := 1000 })) = some (0, 999) := by decide

theorem test_rlus : reply (exec (.rlus 1000) (busyAt 0x23 0 { tbu with arg := 1000 })) = some (0, 1000) := by decide

theorem test_dlyus :
    reply (exec (.dlyus 2) (busyAt 0x30 0 { tbu with arg := 2 })) = some (0, 0) ∧
    view (fun t => (t.iter, t.ph, t.busy)) (exec (.dlyus 3) (busyAt 0x30 0 { tbu with arg := 3 })) = some (2, 1, true) := by
  decide

theorem test_dlyms :
    view (fun t => (t.msrem, t.iter, t.ph)) (exec (.dlyms 3) (busyAt 0x31 1 { tbu with arg := 3, msrem := 3 })) =
      some (2, 1996, 2) ∧
    reply (exec (.dlyms 3) (busyAt 0x31 1 { tbu with arg := 3 })) = some (0, 0) := by decide

/-! ### The other steps, sections 2.2 and 2.6 -/

theorem test_inc_wraps :
    view (fun t => (t.ovrf, t.ovp, t.fault)) (step (facing .inc { tbu with ovrf := 0xFFFFFFFF, ovp := true, ie := true })) =
      some (0, false, false) := by decide

theorem test_event_while_masked :
    view (fun t => (t.ovrf, t.ovp)) (step (facing .ev { tbu with ovrf := 5 })) = some (5, true) := by decide

theorem test_event_ignored_without_timebase : view State.ovp (step (facing .ev bare)) = some false := by decide

theorem test_reset_abandons :
    view (fun t => (t.busy, t.iter, t.msrem, t.arg, t.resp))
      (step (facing .reset (busyAt 0x31 2 { tbu with iter := 700, msrem := 412, arg := 1000 }))) =
      some (false, 0, 0, 0, none) := by decide

/-! ### The arithmetic, sections 2.3 and 2.4, and the generator, S2 and S6 -/

theorem test_scale :
    scale 2 0x60 0x80000000 = 0x06000000 ∧ scale 1 0x5A 1000 = 1702 ∧
    scale 0xFFFFFFFF 0xFFFFFFFE 0xFFFFFFFF = 0xFFFFFFE0 := by decide

theorem test_real :
    realTicks 976562 1000 = 976 ∧ realTicks 999450 1819 = 1817 ∧ realTicks 999450 0xFFFFFFFF = 4292605062 := by decide

theorem test_iters :
    iters 2 4 7 8 = 11 ∧ iters 2 4 7 65535 = 147446 ∧ iters 1 0 10 3 = 0 := by decide

theorem test_gen :
    gen (ratioMs 8000000 64) 1000 = some (2, 0x60) ∧ gen (ratioMs 9600000 64) 10000 = some (1, 0x5A) ∧
    gen (ratioMs 1000000 1) 1000000 = some (0, 4) ∧ gen (ratioMs 8000000 64) 0 = none := by decide +kernel

theorem test_assembler :
    assembleLine ['D', 'L', 'Y', 'U', 'S', ' ', '#', '1', '0', '0'] = some [.dlyus 100] ∧
    assembleLine ['R', 'L', 'M', 'S', ' ', '#', '0', 'x', '3', 'E', '8', ' ', ';', 'x'] = some [.rlms 1000] ∧
    assembleLine ['D', 'L', 'Y', 'U', 'S', ' ', '#', '6', '5', '5', '3', '6'] = none ∧
    encode (.dlyus 100) = 0x3000000064 := by decide

/-! ### Witnesses: states and operands that meet the hypotheses of the obligations -/

/-- `RDMS` in progress past its first byte copies. -/
def reading : State := busyAt 0x20 3 { tbu with ovrf := 0x1FF, snap := 0x1FF, iesave := true, ovp := true }

theorem witness_inv_tbu : Inv tbu := by constructor <;> simp [tbu, State.boot]

theorem witness_inv_reading : Inv reading where
  idle := by decide
  legal := fun _ => ⟨.rdms, by decide, by decide, by decide⟩
  masked := by decide
  noTimebase := by decide
  snapshot := fun _ _ _ k _ => rfl
  micros := fun _ h => absurd h (by decide)
  millis := fun _ h => absurd h (by decide)

/-- EveryStepKeepsInvariant, InvariantStatesNeverStop: a command in progress, under each kind of move. -/
theorem witness_EveryStepKeepsInvariant :
    ∀ m ∈ [Move.ev, .inc, .issue 0, .seq, .reset], Inv (facing m reading) ∧ ∃ t, step (facing m reading) = .next t := by
  have h : ∀ m, Inv (facing m reading) := fun m =>
    ⟨witness_inv_reading.1, witness_inv_reading.2, witness_inv_reading.3, witness_inv_reading.4, witness_inv_reading.5,
      witness_inv_reading.6, witness_inv_reading.7⟩
  intro m hm
  refine ⟨h m, ?_⟩
  simp only [List.mem_cons, List.not_mem_nil, or_false] at hm
  obtain rfl | rfl | rfl | rfl | rfl := hm <;> exact ⟨_, rfl⟩

/-- ResetStepClearsTwelveRegisters: with a command in progress. -/
theorem witness_ResetStepClearsTwelveRegisters : (facing .reset reading).nextMove = .reset := rfl

/-- SequencerStopsExactlyInStuckStates: each clause, the phases at the ends of their range. -/
theorem witness_SequencerStops :
    instrOfOpc (facing .seq (busyAt 0x04 0 tbu)).opc 0 = none ∧
    instrOfOpc (busyAt 0x10 0 bare).opc 0 = some .rdb0 ∧ Instr.rdb0.presentIn bare.cfg.tben = false ∧
    instrOfOpc (busyAt 0x20 6 tbu).opc 0 = some .rdms ∧ Instr.rdms.presentIn tbu.cfg.tben = true ∧
    lastPhase .rdms < (busyAt 0x20 6 tbu).ph.toNat ∧ (busyAt 0x20 5 tbu).ph.toNat ≤ lastPhase .rdms ∧
    lastPhase .nop < (busyAt 0x00 1 tbu).ph.toNat ∧ (busyAt 0x00 0 tbu).ph.toNat ≤ lastPhase .nop := by decide

theorem witness_sequencer_stop_steps :
    step (facing .seq (busyAt 0x04 0 tbu)) = .fault .stuckOpcode ∧
    step (facing .seq (busyAt 0x10 0 bare)) = .fault .stuckAbsent ∧
    step (facing .seq (busyAt 0x20 6 tbu)) = .fault .stuckPhase := ⟨rfl, rfl, rfl⟩

/-- NoStepChangesConfiguration, StepsWriteOnlyListedRegisters, ResponsesEndCommands, FaultFlagIsSticky,
OnlyInterruptOrResetWritesCounterBytes, PendingEventWaitsForService: a step of each kind. -/
theorem witness_steps :
    (∃ t, step (facing .ev tbu) = .next t ∧ t.ovp = true) ∧ (∃ t, step (facing .reset tbu) = .next t) ∧
    (∃ t, step (facing .inc { tbu with ie := true, ovp := true }) = .next t ∧ t.ovrf = 1 ∧ t.ovp = false) ∧
    (∃ t, step (facing (.issue 0x0400000000) tbu) = .next t ∧ t.fault = true ∧ t.resp = some (respWord .illegal 0)) ∧
    (∃ t, step (facing (.issue 0x2000000000) tbu) = .next t ∧ t.busy = true) ∧
    (∃ t, step (facing (.issue 0x2000000000) reading) = .next t ∧ t.ph = 3) ∧
    (∃ t, step (facing .seq tbu) = .next t) := by
  refine ⟨⟨_, rfl, rfl⟩, ⟨_, rfl⟩, ⟨_, rfl, rfl, rfl⟩, ⟨_, rfl, rfl, rfl⟩, ⟨_, rfl, rfl⟩, ⟨_, rfl, rfl⟩, ⟨_, rfl⟩⟩

/-- StepsWriteOnlyListedRegisters: a SEQ step for each case of the opcode. -/
theorem witness_seq_steps :
    ∀ o ∈ [0x00, 0x03, 0x20, 0x21, 0x30, 0x31], ∃ t, step (facing .seq (busyAt (BitVec.ofNat 8 o) 0 tbu)) = .next t := by
  intro o ho
  simp only [List.mem_cons, List.not_mem_nil, or_false] at ho
  obtain rfl | rfl | rfl | rfl | rfl | rfl := ho <;> exact ⟨_, rfl⟩

/-- EventSetsPendingWhenTimebaseEnabled: each clause. -/
theorem witness_EventSetsPending :
    (facing .ev tbu).nextMove = .ev ∧ (facing .ev tbu).cfg.tben = true ∧ (facing .ev bare).cfg.tben = false ∧
    (facing .ev reading).ovp = true := by decide

/-- IncrementServicesPendingEvent: enabled at the last counter value, and not enabled. -/
theorem witness_IncrementServicesPendingEvent :
    (facing .inc { tbu with ovrf := 0xFFFFFFFF, ovp := true, ie := true }).nextMove = .inc ∧
    incEnabled { tbu with ovrf := 0xFFFFFFFF, ovp := true, ie := true } = true ∧ incEnabled reading = false := by decide

/-- TurnsWithoutStepChangeNothing: each clause. -/
theorem witness_TurnsWithoutStep :
    (facing (.issue 0x0400000000) reading).nextMove = .issue 0x0400000000 ∧ reading.busy = true ∧
    (facing .seq tbu).nextMove = .seq ∧ tbu.busy = false ∧ (facing .inc tbu).nextMove = .inc ∧ tbu.ie = false := by decide

/-- StepRunsDecodedCommand, IssueLatchesTheWordItRuns: an operand at the top of its range. -/
theorem witness_StepRunsDecodedCommand :
    (facing (.issue 0x300000FFFF) tbu).nextMove = .issue 0x300000FFFF ∧ decode 0x300000FFFF = .ok (.dlyus 0xFFFF) ∧
    (Instr.dlyus 0xFFFF).presentIn tbu.cfg.tben = true ∧ instrOfOpc reading.opc reading.arg = some .rdms ∧
    decodeTableWord 40 0x300000FFFF = some (.dlyus 0xFFFF) := by decide

/-- EncodeOfDecodeIsIdentity, DecoderAgreesWithOpcodeTable: a word and the row it selects. -/
theorem witness_DecoderAgrees :
    decode 0x0300000001 = .ok (.ieset 1) ∧
    ∃ r ∈ opcodeTable, (0x0300000001 : CmdWord) &&& r.mask = r.pattern ∧ r.opc = 0x03 := by decide

/-- IllegalRaisedExactlyWithoutRow, AbsentRaisedExactlyWithoutTimebase: an idle TBU facing a word of each kind. -/
theorem witness_faults :
    (∀ r ∈ opcodeTable, (0x0400000000 : CmdWord) &&& r.mask ≠ r.pattern) ∧
    (∃ r ∈ opcodeTable, (0x1000000000 : CmdWord) &&& r.mask = r.pattern ∧ r.needsTben = true) ∧ bare.cfg.tben = false ∧
    bare.busy = false ∧ (facing (.issue 0x1000000000) bare).nextMove = .issue 0x1000000000 ∧
    ∃ t, step (facing (.issue 0x1000000000) tbu) = .next t :=
  ⟨by decide, by decide, rfl, rfl, rfl, _, rfl⟩

/-- The near misses of the command statements, reserved bits at both ends of their range. -/
theorem witness_reserved_bits :
    opcField 0x0000000001 = 0x00 ∧ immField 0x0000000001 ≠ 0 ∧ opcField 0x0180000000 = 0x01 ∧ immField 0x0180000000 ≠ 0 ∧
    opcField 0x0200000001 = 0x02 ∧ opcField 0x0300000002 = 0x03 ∧ immField 0x0300000002 >>> 1 ≠ 0 ∧
    opcField 0x1300000100 = 0x10 + 3 ∧ opcField 0x2180000000 = 0x21 ∧ opcField 0x3000010000 = 0x30 ∧
    immField 0x3000010000 >>> 16 ≠ 0 ∧ opcField 0x2200000000 = 0x22 ∧ opcField 0x31FFFFFFFF = 0x31 := by decide

/-- NopOnlyResponds, RdstReadsStatus, IegetReturnsInterruptEnable, IesetWritesInterruptEnable,
ByteReadsReturnCounterBytes, CorrectionCommandsScaleOperand, ClockReadsAreIssued: an idle TBU of each build, and a
busy one at phase 0 with the operand in `ARG`. -/
theorem witness_one_phase_commands :
    tbu.busy = false ∧ tbu.cfg.tben = true ∧ bare.busy = false ∧ bare.cfg.tben = false ∧
    (busyAt 0x03 0 { tbu with arg := 1 }).busy = true ∧ (busyAt 0x03 0 { tbu with arg := 1 }).ph = 0 ∧
    (busyAt 0x03 0 { tbu with arg := 1 }).arg = (1 : BitVec 1).setWidth 32 ∧
    (busyAt 0x22 0 { tbu with arg := 0xFFFFFFFF }).arg = 0xFFFFFFFF := by decide

/-- UnmaskedReadsCanTear: both counters; with interrupts on. -/
theorem witness_UnmaskedReadsCanTear :
    ({ tbu with ie := true, ovrf := 0x1FF } : State).ovrf = 0x1FF ∧ ({ tbu with ie := true, ovrf := 0xFF } : State).ovrf = 0xFF ∧
    ({ tbu with ie := true } : State).busy = false ∧ ({ tbu with ie := true } : State).cfg.tben = true := by decide

/-- MaskedByteReadsAreTornFree: one read with an event and a turn of the interrupt agent inside it. -/
theorem witness_MaskedByteReadsAreTornFree :
    tbu.ie = false ∧ interruptsOnly [.ev, .inc] ∧
    responses (readMoves 1 [.ev, .inc] [.inc]) { tbu with ovrf := 0x1FF } = [respWord .ok 1] := by
  refine ⟨rfl, ?_, by decide⟩
  intro m hm
  simpa using hm

/-- CounterConstantWhileMasked, CounterCountsServicedEvents: a run with an event. -/
theorem witness_CounterRuns :
    Move.reset ∉ [Move.ev, .inc] ∧ (∀ n < [Move.ev, Move.inc].length, ∀ u, runMoves ([Move.ev, .inc].take n) tbu = .next u →
      u.ie = false) ∧ ∃ t, runMoves [.ev, .inc] tbu = .next t := by
  refine ⟨by decide, ?_, _, rfl⟩
  intro n hn u hu
  have h : n = 0 ∨ n = 1 := by simp at hn; omega
  obtain rfl | rfl := h <;> (cases hu; rfl)

/-- SpacedEventsAreAllCounted. -/
theorem witness_SpacedEvents :
    ({ tbu with ie := true } : State).cfg.tben = true ∧ ({ tbu with ie := true } : State).ovp = false := by decide

/-- The increment of an event that arrives while interrupts are masked is taken after `IESET #1`: a spaced run. -/
def spaced : List Move := [.ev, .issue 0x0300000001, .seq, .inc, .ev]

/-- SpacedEventsAreAllCounted: commands run between the events, and the INC step is not the next move. -/
theorem witness_spaced_run :
    eventSpacing spaced tbu ∧ Move.reset ∉ spaced ∧ ∃ t, runMoves spaced tbu = .next t ∧ t.ovrf = 1 ∧ t.ovp = true := by
  refine ⟨?_, by decide, _, rfl, rfl, rfl⟩
  intro before between after h hb u hu
  match before with
  | [] =>
    have hl : between = [.issue 0x0300000001, .seq, .inc] := by
      simp only [spaced, List.nil_append, List.cons_append, List.cons.injEq, true_and] at h
      match between with
      | [] => simp at h
      | [_] => simp at h
      | [_, _] => simp at h
      | [_, _, _] => simp at h; simp [h]
      | _ :: _ :: _ :: _ :: bs => simp at h
    subst hl
    cases hu
    decide
  | [_] => simp [spaced] at h
  | [_, _] => simp [spaced] at h
  | [_, _, _] => simp [spaced] at h
  | [_, _, _, _] => simp [spaced] at h
  | _ :: _ :: _ :: _ :: _ :: bs => simp [spaced] at h

/-- MaskedReadProtocolRestoresEnable: program P2, half (b), with its event, from an enabled machine at 0x1FF. -/
theorem witness_MaskedReadProtocol :
    ({ tbu with ie := true, ovrf := 0x1FF } : State).ie = ((1 : BitVec 1) == 1#1) ∧ interruptsOnly [] ∧
    responses (commandMoves .ieget [] [] ++ commandMoves (.ieset 0) [] [] ++ readMoves 3 [] [] ++ readMoves 2 [] [] ++
      readMoves 1 [] [.ev] ++ readMoves 0 [] [] ++ commandMoves (.ieset 1) [] []) { tbu with ie := true, ovrf := 0x1FF } =
      [respWord .ok 1, respWord .ok 0, respWord .ok 0, respWord .ok 0, respWord .ok 1, respWord .ok 0xFF,
        respWord .ok 0] :=
  ⟨by decide, fun _ h => absurd h List.not_mem_nil, by decide⟩

/-- FairSchedulesComplete: a schedule of SEQ moves is fair to the sequencer, and one of INC moves to the interrupt agent, from
a command in progress and from a pending event with interrupts on. -/
theorem witness_FairSchedules :
    fairSeq (fun _ => .seq) reading ∧ fairInc (fun _ => .inc) { tbu with ie := true, ovp := true } ∧
    (∀ n u, runUntil (fun _ => .inc) { tbu with ie := true, ovp := true } n = .next u → u.ie = true) ∧ Inv reading ∧
    reading.busy = true ∧ Inv { tbu with ie := true, ovp := true } := by
  refine ⟨fun n _ => ⟨n, le_refl n, rfl⟩, fun n _ => ⟨n, le_refl n, rfl⟩, ?_, witness_inv_reading, rfl, ?_⟩
  · intro n u h
    refine runMoves_induction (P := fun s => s.ie = true) (fun m hm s t hs hst => ?_) rfl h
    obtain ⟨_, _, rfl⟩ := List.mem_map.mp hm
    rw [stepWith_eq] at hst
    cases hst
    split <;> simpa using hs
  · constructor <;> simp [tbu, State.boot, Config.exampleA]

/-- ProgramsEndWithSequencerIdle: `RDST` then `NOP`, with an event before the second. -/
theorem witness_ProgramRun :
    ∃ t, ProgramRun [0x0100000000, 0] [.issue 0x0100000000, .seq, .ev, .issue 0, .seq] tbu t ∧
      ProgramEnded [0x0100000000, 0] [.issue 0x0100000000, .seq, .ev, .issue 0, .seq] tbu := by
  refine ⟨_, ⟨rfl, rfl, rfl, ?_, by decide⟩, by decide⟩
  intro before w after h
  match before with
  | [] => rfl
  | [_] => simp at h
  | [_, _] => simp at h
  | [a, b, c] =>
    simp only [List.cons_append, List.nil_append, List.cons.injEq] at h
    obtain ⟨rfl, rfl, rfl, -⟩ := h
    decide
  | [_, _, _, _] => simp at h
  | _ :: _ :: _ :: _ :: _ :: bs => simp at h

/-- IllFormedRecordsAreNotBuilt: a record of each kind. -/
theorem witness_IllFormed : Config.exampleA.WF ∧ ¬({ Config.exampleA with presc := 16 } : Cfg).WF :=
  ⟨Config.exampleA_wf, test_w1_refuses⟩

/-- ReadingsAreMonotone: the last microsecond reading before the wrap (section 2.3). -/
theorem witness_ReadingsAreMonotone : (1000 : Word) ≤ 0x1FFFFF ∧ scaleTotal 2048 0 0x1FFFFF < 2 ^ 32 := by decide

/-- ExactRatioHasNoError: the microsecond constants of CFG-A and the millisecond constants of CFG-B. -/
theorem witness_ExactRatio :
    Config.exampleA.sus = 0 ∧ (Config.exampleA.kus.toNat : ℚ) = Config.exampleA.rUs ∧
    ({ Config.exampleA with fcpu := 1024000, kms := 16, sms := 0 } : Cfg).rMs = 16 := by decide +kernel

/-- ScalerValueLaws, ThousandOverflowsNeverReadFast, CorrectionIsCloseBelowExactCount, IterationCountNeverWraps,
LongerRequestsNeverLoopLess: CFG-A is well-formed with the timebase enabled; masks with and without terms. -/
theorem witness_configuration :
    Config.exampleA.WF ∧ Config.exampleA.tben = true ∧ Config.exampleA.fcpu = 8000000 ∧ Config.exampleA.presc = 64 ∧
    Config.exampleA.min < 3 ∧ (3 : BitVec 16) ≤ 65535 ∧ 0 < (shiftAmounts 0x60).length ∧ (shiftAmounts 0).length = 0 ∧
    (0x60 : Word).getLsbD 0 = false ∧ (1000000 : BitVec 20).toNat ≤ 1000000 :=
  ⟨Config.exampleA_wf, by decide⟩

/-- MaskedReadPhases: every phase, the byte copies at both ends. -/
theorem witness_MaskedReadPhases :
    (busyAt 0x20 0 tbu).ph = 0 ∧ (busyAt 0x20 1 tbu).ph.toNat = (0 : Fin 4).val + 1 ∧
    (busyAt 0x20 4 tbu).ph.toNat = (3 : Fin 4).val + 1 ∧ (busyAt 0x20 5 tbu).ph = 5 ∧ (busyAt 0x20 0 tbu).busy = true ∧
    (busyAt 0x20 0 tbu).cfg.tben = true := by decide

/-- ClockReadReturnsScaledCounter: four inner turns of the sequencer with an event and an interrupt turn among them;
`RDMS` at 0x1FF then reads 1022 + 15 + 7. -/
theorem witness_ClockRead :
    undisturbed [.seq, .seq, .ev, .inc, .seq, .seq] ∧ [Move.seq, .seq, .ev, .inc, .seq, .seq].count .seq = 4 ∧
    responses [.seq, .seq, .seq, .ev, .inc, .seq, .seq, .seq] (busyAt 0x20 0 { tbu with ovrf := 0x1FF }) =
      [respWord .ok 1044] := by
  refine ⟨?_, by decide, by decide⟩
  intro m hm
  simp at hm
  tauto

/-- MicrosecondDelayPhases, MillisecondDelayPhases: each clause, at and just above the threshold; 1000 at and below `MIN`. -/
theorem witness_delay_phases :
    (2 : BitVec 16) ≤ tbu.cfg.min ∧ tbu.cfg.min < 3 ∧ (busyAt 0x30 1 { tbu with iter := 1 }).iter ≠ 0 ∧
    (busyAt 0x30 1 tbu).iter = 0 ∧ tbu.cfg.min.toNat < 1000 ∧
    1000 ≤ ({ Config.exampleA with min := 1000 } : Cfg).min.toNat ∧ (busyAt 0x31 1 { tbu with msrem := 1 }).msrem ≠ 0 ∧
    (busyAt 0x31 2 { tbu with iter := 1 }).ph = 2 ∧ (busyAt 0x30 1 { tbu with arg := 3 }).arg = (3 : BitVec 16).setWidth 32 := by
  decide

/-- MicrosecondDelayLength: S5, `DLYUS #3` takes four SEQ steps and `DLYUS #2` one; an event between changes nothing. -/
theorem witness_MicrosecondDelayLength :
    undisturbed [.seq, .ev, .seq, .seq] ∧
    [Move.seq, .ev, .seq, .seq].count .seq + 1 =
      (if (3 : BitVec 16) ≤ tbu.cfg.min then 1 else 2 + (tbu.cfg.iters 3).toNat) ∧
    [Move.ev].count .seq + 1 = (if (2 : BitVec 16) ≤ tbu.cfg.min then 1 else 2 + (tbu.cfg.iters 2).toNat) ∧
    responses ([.seq, .ev, .seq, .seq] ++ [.seq]) (busyAt 0x30 0 { tbu with arg := 3 }) = [respWord .ok 0] := by
  refine ⟨?_, by decide, by decide, by decide⟩
  intro m hm
  simp at hm
  tauto

/-- MillisecondDelayLength: `DLYMS #0` takes two SEQ steps; section 2.4's threshold above 1000, `DLYMS #5` takes seven. -/
theorem witness_MillisecondDelayLength :
    undisturbed [.seq] ∧
    [Move.seq].count .seq + 1 = (if 1000 ≤ tbu.cfg.min.toNat then 2 + 0 else 2 + 0 * (2 + (tbu.cfg.iters 1000).toNat)) ∧
    (List.replicate 6 Move.seq).count .seq + 1 = 2 + 5 ∧
    responses (List.replicate 7 .seq)
      (busyAt 0x31 0 { overCfg slow slow_wf tbu with arg := 5 }) =
      [respWord .ok 0] := by
  refine ⟨?_, by decide, by decide, by decide⟩
  intro m hm
  simp at hm
  exact .inl hm

/-- DelaysIgnoreCounterAndFlags: two states that differ in the counter and the flags, one that steps and one that stops. -/
theorem witness_DelaysIgnore :
    (Instr.dlyus 3).opc = 0x30 ∧ agreeOffCounter tbu { tbu with ie := true, ovp := true, ovrf := 7, fault := true } ∧
    (∃ u, exec (.dlyus 3) (busyAt 0x30 0 tbu) = .next u) ∧ exec (.dlyms 3) (busyAt 0x31 3 tbu) = .fault .stuckPhase :=
  ⟨rfl, rfl, ⟨_, rfl⟩, rfl⟩

/-- GeneratorMeetsBudgetSlowly, TighterBudgetNeverLessAccurate: two budgets at one ratio, and an integer ratio. -/
theorem witness_Generator :
    (0 : ℚ) < ratioMs 8000000 64 ∧ 1000 ≤ 1000000 ∧ gen (ratioMs 8000000 64) 1000000 = some (2, 0) ∧
    gen (ratioMs 8000000 64) 1000 = some (2, 0x60) ∧ gen 16 0 = some (16, 0) := by decide +kernel

/-- A loop of four cycles an iteration at 8 MHz, as CFG-A's constants assume (section 0). -/
def cycles : Timing := { cIter := 4, cSetup := 16, cEarly := 16, cIsr := 40, cMs := 8, cBase := 8 }

theorem cycles_never_short (us : BitVec 16) (j : Nat) : us.toNat * 8000000 ≤ microsCycles cycles Config.exampleA us j * 1000000 := by
  have h0 : ∀ x, shiftSum 0 x = 0 := fun x => by simp [shiftSum, shiftAmounts]
  have hu := us.isLt
  unfold microsCycles
  split
  · rename_i h
    have h : us.toNat ≤ 2 := h
    simp only [cycles]
    omega
  · have e : (Config.exampleA.iters us).toNat = us.toNat * 2 - 4 := by
      simp only [Config.exampleA, Cfg.iters, iters, itersNat, loopTotal, h0]
      simp
      omega
    rw [e]
    simp only [cycles]
    omega

/-- MillisecondDelayNeverShort: an oblivious and a calibrated set that never under-delay, with the expected interrupts. -/
theorem witness_MillisecondDelayNeverShort :
    (0 : Nat) ≤ 1 ∧ neverUnderDelays cycles Config.exampleA ∧ Config.exampleA.dcal = false ∧
    neverUnderDelays cycles { Config.exampleA with dcal := true } ∧
    ∀ j ∈ [0, 0], expectedInterrupts cycles { Config.exampleA with dcal := true } 1000 j := by
  refine ⟨Nat.zero_le 1, fun us => cycles_never_short us 0, rfl, fun us j _ => cycles_never_short us j, ?_⟩
  intro j hj
  simp at hj
  subst hj
  exact ⟨by decide, fun k hk => absurd hk (Nat.not_lt_zero k)⟩

/-- AssemblerNeverTruncates: the largest operands that fit. -/
theorem witness_AssemblerNeverTruncates :
    operandCommand ['I', 'E', 'S', 'E', 'T'] 1 = some (.ieset 1) ∧
    operandCommand ['D', 'L', 'Y', 'U', 'S'] 65535 = some (.dlyus 65535) ∧
    operandCommand ['D', 'L', 'Y', 'M', 'S'] 4294967295 = some (.dlyms 4294967295) := by decide

end Sys2Proof.Tests
end

section
/-! PROOFS. The scope (spec 00_scope.md): the build-time check of the record, the configuration along a step, and the table
generator. -/

namespace Sys2Proof

/-! ### The build-time check (R10, R176) -/

/-- The check accepts a well-formed record and builds the machine over that record. -/
theorem Cfg.elaborate_of_wf {c : Cfg} (h : c.WF) : c.elaborate = some ⟨c, h⟩ :=
  dif_pos ⟨h.w1, h.w2, h.w3, h.w4, h.w5, h.w6, h.w7, h.w8, h.w9⟩

/-- The check refuses a record that fails any of W1 to W9. -/
theorem Cfg.elaborate_of_not_wf {c : Cfg} (h : ¬c.WF) : c.elaborate = none :=
  dif_neg fun ⟨h1, h2, h3, h4, h5, h6, h7, h8, h9⟩ => h ⟨h1, h2, h3, h4, h5, h6, h7, h8, h9⟩

theorem Cfg.elaborate_eq_none_iff (c : Cfg) : c.elaborate = none ↔ ¬c.WF :=
  ⟨fun e h => by simp [elaborate_of_wf h] at e, elaborate_of_not_wf⟩

/-- Settles O6: the check answers by `WF` alone, and a state carries the proof of its record's `WF`. -/
theorem illFormedRecordsAreNotBuilt : Obligations.IllFormedRecordsAreNotBuilt := by
  refine ⟨Cfg.elaborate_eq_none_iff, fun c b hb => ?_, fun s => ⟨_, Cfg.elaborate_of_wf s.wf, rfl⟩⟩
  by_cases h : c.WF
  · rw [Cfg.elaborate_of_wf h] at hb
    cases hb
    rfl
  · rw [Cfg.elaborate_of_not_wf h] at hb
    cases hb

end Sys2Proof

namespace Sys2Proof.Machine

/-! ### The configuration along a step (R5, R33) -/

/-- Settles O7: the configuration is one of the fields `step_keeps` lists. -/
theorem noStepChangesConfiguration : Obligations.NoStepChangesConfiguration :=
  fun _ _ h => (step_keeps h).1

/-! ### The generator (R13, R14) -/

/-- The sum of a ratio, over the set of its selected shift amounts. -/
theorem approx_eq_sum (K S : Word) : approx K S = K.toNat + ∑ a ∈ (shiftAmounts S).toFinset, (1 : ℚ) / 2 ^ a := by
  have hnd : (shiftAmounts S).Nodup := List.Nodup.filter _ List.nodup_range'
  rw [approx, List.sum_toFinset _ hnd]

@[simp] theorem approx_zero_mask (K : Word) : approx K 0 = K.toNat := by
  rw [approx, shiftAmounts_zero, List.map_nil, List.sum_nil, add_zero]

/-- More selected shift amounts give a larger ratio. -/
theorem approx_mono_mask (K : Word) {S S' : Word} (h : S &&& S' = S) : approx K S ≤ approx K S' := by
  have hsub : (shiftAmounts S).toFinset ⊆ (shiftAmounts S').toFinset := by
    intro a ha
    rw [List.mem_toFinset, mem_shiftAmounts] at ha ⊢
    refine ⟨ha.1, ?_⟩
    have hbit := ha.2
    rw [← h, BitVec.getLsbD_and, Bool.and_eq_true] at hbit
    exact hbit.2
  rw [approx_eq_sum, approx_eq_sum]
  gcongr

theorem genK_eq_floor (r : ℚ) : genK r = ⌊r⌋₊ := Int.floor_toNat r

/-- The mask of the first `n` fraction digits of `r`: what the generator's loop has set once it has looked at the shift
amounts 1 to `n`. -/
def digitMask (r : ℚ) : Nat → Word
  | 0 => 0
  | n + 1 => if genBit r (n + 1) then digitMask r n ||| (1#32 <<< (n + 1)) else digitMask r n

theorem digitMask_getLsbD (r : ℚ) {n : Nat} (hn : n < 32) (a : Nat) :
    (digitMask r n).getLsbD a = (decide (1 ≤ a ∧ a ≤ n) && genBit r a) := by
  induction n with
  | zero => simp [digitMask]; omega
  | succ n ih =>
    have hone : (1#32 <<< (n + 1)).getLsbD a = decide (a = n + 1) := by
      rw [BitVec.getLsbD_shiftLeft, BitVec.getLsbD_one]
      grind
    have hshort := ih (by omega)
    rw [digitMask]
    split
    · rw [BitVec.getLsbD_or, hshort, hone]
      grind
    · grind

/-- A shorter run of the leading digits is part of a longer one. -/
theorem digitMask_and (r : ℚ) {i j : Nat} (hij : i ≤ j) (hj : j < 32) :
    digitMask r i &&& digitMask r j = digitMask r i := by
  apply BitVec.eq_of_getLsbD_eq
  intro a _
  rw [BitVec.getLsbD_and, digitMask_getLsbD r (by omega), digitMask_getLsbD r hj]
  grind

/-- Each of the leading digits adds its power of two to the ratio. -/
theorem approx_digitMask (K : Word) (r : ℚ) {n : Nat} (hn : n < 32) :
    approx K (digitMask r n) = K.toNat + ∑ a ∈ Finset.Icc 1 n, if genBit r a then (1 : ℚ) / 2 ^ a else 0 := by
  have hset : (shiftAmounts (digitMask r n)).toFinset = {a ∈ Finset.Icc 1 n | genBit r a = true} := by
    ext a
    simp [mem_shiftAmounts, digitMask_getLsbD r hn]
    omega
  rw [approx_eq_sum, hset, Finset.sum_filter]

/-- One more binary digit of the fraction. -/
theorem floor_digit (r : ℚ) (n : Nat) :
    ⌊(r - genK r) * 2 ^ (n + 1)⌋ = 2 * ⌊(r - genK r) * 2 ^ n⌋ + if genBit r (n + 1) then 1 else 0 := by
  have hhalf : ⌊(r - genK r) * 2 ^ n⌋ = ⌊(r - genK r) * 2 ^ (n + 1)⌋ / 2 := by
    have hdiv := Int.floor_div_natCast ((r - genK r) * 2 ^ (n + 1)) 2
    rw [pow_succ, ← mul_assoc] at hdiv ⊢
    simpa using hdiv
  rw [genBit, hhalf]
  simp only [beq_iff_eq]
  split <;> omega

/-- The leading digits add up to the fraction of `r`, rounded down to `n` binary places. -/
theorem sum_digits {r : ℚ} (hr : 0 ≤ r) (n : Nat) :
    (∑ a ∈ Finset.Icc 1 n, if genBit r a then (1 : ℚ) / 2 ^ a else 0) = ⌊(r - genK r) * 2 ^ n⌋ / 2 ^ n := by
  induction n with
  | zero =>
    have hfrac : ⌊r - genK r⌋ = 0 := by
      rw [genK_eq_floor, natCast_floor_eq_intCast_floor hr, Int.self_sub_floor, Int.floor_fract]
    simp [hfrac]
  | succ n ih =>
    rw [Finset.sum_Icc_succ_top (by omega), ih, floor_digit]
    split <;> (push_cast; field_simp; ring)

/-- The slow bias of every run of leading digits (W5). -/
theorem approx_digitMask_le {r : ℚ} (hr : 0 ≤ r) (hK : genK r < 2 ^ 32) {n : Nat} (hn : n < 32) :
    approx (BitVec.ofNat 32 (genK r)) (digitMask r n) ≤ r := by
  have hfloor : (⌊(r - genK r) * 2 ^ n⌋ : ℚ) / 2 ^ n ≤ r - genK r := by
    rw [div_le_iff₀ (by positivity)]
    exact Int.floor_le _
  have hKn : (BitVec.ofNat 32 (genK r)).toNat = genK r := by simpa using hK
  rw [approx_digitMask _ _ hn, sum_digits hr, hKn]
  linarith

theorem genLoop_of_stop {r : ℚ} {ppm : Nat} {K S : Word} (h : genStop r ppm K S) (todo : List Nat) :
    genLoop r ppm K todo S = some S := by
  rw [genLoop.eq_def, if_pos h]

/-- From the first `n` digits on the loop returns the shortest run of leading digits that meets the stopping condition. -/
theorem genLoop_digitMask {r : ℚ} {ppm : Nat} {K S : Word} {n m : Nat}
    (h : genLoop r ppm K (List.range' (n + 1) m) (digitMask r n) = some S) :
    ∃ j, n ≤ j ∧ j ≤ n + m ∧ S = digitMask r j ∧ genStop r ppm K (digitMask r j) ∧
      ∀ i, n ≤ i → i < j → ¬genStop r ppm K (digitMask r i) := by
  induction m generalizing n with
  | zero =>
    rw [List.range'_zero, genLoop] at h
    split at h
    next hs => exact ⟨n, le_rfl, by omega, (Option.some.inj h).symm, hs, fun i hi hlt => by omega⟩
    next => cases h
  | succ m ih =>
    rw [List.range'_succ, genLoop] at h
    split at h
    next hs => exact ⟨n, le_rfl, by omega, (Option.some.inj h).symm, hs, fun i hi hlt => by omega⟩
    next hs =>
      obtain ⟨j, hnj, hjm, hS, hstop, hfirst⟩ := ih (n := n + 1) h
      refine ⟨j, by omega, by omega, hS, hstop, fun i hi hlt => ?_⟩
      obtain rfl | hlt' := hi.eq_or_lt
      · exact hs
      · exact hfirst i hlt' hlt

/-- What `Gen` returns: the integer part, and the shortest run of leading digits that meets the stopping
condition. -/
theorem gen_eq_some {r : ℚ} {ppm : Nat} {K S : Word} (h : gen r ppm = some (K, S)) :
    genK r < 2 ^ 32 ∧ K = BitVec.ofNat 32 (genK r) ∧ ∃ j < 32, S = digitMask r j ∧ genStop r ppm K (digitMask r j) ∧
      ∀ i < j, ¬genStop r ppm K (digitMask r i) := by
  unfold gen at h
  split at h
  next => cases h
  next hK =>
    obtain ⟨S', hloop, heq⟩ := Option.map_eq_some_iff.mp h
    cases heq
    obtain ⟨j, -, hj, hS, hstop, hfirst⟩ := genLoop_digitMask (n := 0) hloop
    exact ⟨by omega, rfl, j, by omega, hS, hstop, fun i => hfirst i (Nat.zero_le i)⟩

theorem genK_natCast (n : Nat) : genK n = n := by rw [genK_eq_floor, Nat.floor_natCast]

/-- An integer ratio needs no correction term: the loop stops at once, with no error. -/
theorem gen_natCast {n : Nat} (ppm : Nat) (hpos : 0 < n) (hn : n < 2 ^ 32) :
    gen n ppm = some (BitVec.ofNat 32 n, 0) := by
  have hexact : approx (BitVec.ofNat 32 n) 0 = n := by
    rw [approx_zero_mask, BitVec.toNat_ofNat, Nat.mod_eq_of_lt hn]
  have hstop : genStop n ppm (BitVec.ofNat 32 n) 0 := by
    rw [genStop, hexact, sub_self, zero_mul]
    exact ⟨by positivity, by positivity⟩
  rw [gen, genK_natCast, if_neg (by omega), genLoop_of_stop hstop, Option.map_some]

/-- What meets the tighter budget meets the looser one. -/
theorem genStop_mono {r : ℚ} (hr : 0 ≤ r) {tight loose : Nat} (h : tight ≤ loose) {K S : Word}
    (hs : genStop r tight K S) : genStop r loose K S :=
  ⟨hs.1, hs.2.trans (by gcongr)⟩

/-- Settles O57: the result of `Gen` is a run of the leading binary digits of `r`, so it is slow, and it meets the stopping
condition, which is the budget. -/
theorem generatorMeetsBudgetSlowly : Obligations.GeneratorMeetsBudgetSlowly := by
  refine ⟨fun r ppm K S hr h => ?_, fun n ppm => gen_natCast ppm⟩
  obtain ⟨hK, rfl, j, hj, rfl, ⟨hpos, hbudget⟩, -⟩ := gen_eq_some h
  exact ⟨by rw [digitMask_getLsbD r hj]; rfl, hpos, approx_digitMask_le hr.le hK hj, hbudget⟩

/-- Settles O58: both results are the shortest run of the same digits that meets its budget, and none meets the tighter
budget before the looser one. -/
theorem tighterBudgetNeverLessAccurate : Obligations.TighterBudgetNeverLessAccurate := by
  intro r tight loose K S K' S' hr hle hloose htight
  obtain ⟨-, rfl, i, hi, rfl, -, hfirst⟩ := gen_eq_some hloose
  obtain ⟨-, rfl, j, hj, rfl, hstop, -⟩ := gen_eq_some htight
  have hij : i ≤ j := not_lt.mp fun hlt => hfirst j hlt (genStop_mono hr.le hle hstop)
  have hsub := digitMask_and r hij hj
  exact ⟨rfl, hsub, sub_le_sub_left (approx_mono_mask _ hsub) r⟩

end Sys2Proof.Machine
end

section
/-! PROOFS. The state (spec 10_state.md): what the phases of a command do and write, the invariant along every step, and the
access matrix of the registers. -/

namespace Sys2Proof

/-! ### The command a word holds (R71, R72, R75) -/

/-- Every command's opcode and operand name it again, with no reserved bit set. -/
theorem operandLatch (i : Instr) : Laws.OperandLatch.Statement i := by
  cases i with
  | nop => exact Laws.OperandLatch.nop
  | rdst => exact Laws.OperandLatch.rdst
  | ieget => exact Laws.OperandLatch.ieget
  | ieset b => exact Laws.OperandLatch.ieset b
  | rdb0 => exact Laws.OperandLatch.rdb0
  | rdb1 => exact Laws.OperandLatch.rdb1
  | rdb2 => exact Laws.OperandLatch.rdb2
  | rdb3 => exact Laws.OperandLatch.rdb3
  | rdms => exact Laws.OperandLatch.rdms
  | rdus => exact Laws.OperandLatch.rdus
  | rlms n => exact Laws.OperandLatch.rlms n
  | rlus n => exact Laws.OperandLatch.rlus n
  | dlyus us => exact Laws.OperandLatch.dlyus us
  | dlyms ms => exact Laws.OperandLatch.dlyms ms

/-- `decode_ok` for a word given by its two fields, as `OPC` and `ARG` hold it. -/
theorem decode_append_ok {o : BitVec 8} {a : Word} {i : Instr} :
    decode (o ++ a) = .ok i ↔ instrOfOpc o a = some i ∧ a >>> i.format.usedBits = 0 := by
  rw [decode_ok, opcField_append, immField_append]

theorem decode_encode (i : Instr) : decode (encode i) = .ok i := decode_append_ok.mpr (operandLatch i)

/-- A word that names a command but sets a reserved bit is rejected for that bit (R75). -/
theorem decode_reserved {w : CmdWord} {i : Instr} (hi : instrOfOpc (opcField w) (immField w) = some i)
    (hr : immField w >>> i.format.usedBits ≠ 0) : decode w = .error .reservedOperandBits := by
  simp only [decode, hi, hr, if_false]

/-- The low bits of a word whose other bits are 0 are the word. -/
theorem setWidth_extractLsb'_of_ushiftRight {a : Word} {k : Nat} (h : a >>> k = 0) :
    (a.extractLsb' 0 k).setWidth 32 = a := by
  have hlt := (ushiftRight_eq_zero_iff a k).mp h
  apply BitVec.eq_of_toNat_eq
  simpa [Nat.mod_eq_of_lt hlt] using a.isLt

/-- With no reserved bit set, the operand of the command an opcode names is the whole operand field (R72). -/
theorem operand_of_instrOfOpc {o : BitVec 8} {a : Word} {i : Instr} (h : instrOfOpc o a = some i)
    (hr : a >>> i.format.usedBits = 0) : i.operand = a := by
  unfold instrOfOpc at h
  split at h <;> cases h
  case h_4 | h_13 => exact setWidth_extractLsb'_of_ushiftRight hr
  case h_11 | h_12 | h_14 => rfl
  all_goals exact ((BitVec.ushiftRight_zero a).symm.trans hr).symm

/-- A word that decodes to a command is that command's word. -/
theorem encode_of_decode {w : CmdWord} {i : Instr} (h : decode w = .ok i) : encode i = w := by
  obtain ⟨hi, hr⟩ := decode_ok.mp h
  rw [encode, opc_of_instrOfOpc hi, operand_of_instrOfOpc hi hr, fields_append]

end Sys2Proof

namespace Sys2Proof.Machine

/-! ### The next move, carried out (R35) -/

theorem step_of_nextMove {s : State} {m : Move} (h : s.nextMove = m) : step s = runMove m s.afterTurn := by
  rw [step_eq, h]

/-- ISSUE of a word runs the command it decodes to. -/
theorem stepIssue_of_decode {s : State} {w : CmdWord} {i : Instr} (hb : s.busy = false) (hd : decode w = .ok i) :
    stepIssue w s = exec i s := by
  simp [stepIssue, hb, hd]

/-- SEQ of a busy TBU runs the command `OPC` names. -/
theorem stepSeq_of_instrOfOpc {s : State} {i : Instr} (hb : s.busy = true) (hi : instrOfOpc s.opc s.arg = some i) :
    stepSeq s = exec i s := by
  simp [stepSeq, hb, hi]

/-- `stepIssue_of_decode`, as a step. -/
theorem step_issue_exec {s : State} {w : CmdWord} {i : Instr} (hm : s.nextMove = .issue w) (hb : s.busy = false)
    (hd : decode w = .ok i) : step s = exec i s.afterTurn :=
  (step_of_nextMove hm).trans (stepIssue_of_decode (by simpa using hb) hd)

/-- `stepSeq_of_instrOfOpc`, as a step. -/
theorem step_seq_exec {s : State} {i : Instr} (hm : s.nextMove = .seq) (hb : s.busy = true)
    (hi : instrOfOpc s.opc s.arg = some i) : step s = exec i s.afterTurn :=
  (step_of_nextMove hm).trans (stepSeq_of_instrOfOpc (by simpa using hb) (by simpa using hi))

theorem stepSeq_of_unassigned {s : State} (hb : s.busy = true) (hi : instrOfOpc s.opc s.arg = none) :
    stepSeq s = .fault .stuckOpcode := by
  simp [stepSeq, hb, hi]

/-- What a turn of the machine can do from `s`, and the state each way leads to: one case for each way a move goes on (R35,
R74, R91), and one for each turn without a step (log entry 7). -/
inductive Turn (s : State) : State → Prop
  | event (hm : s.nextMove = .ev) : Turn s (setPending s.afterTurn)
  | interrupt (hm : s.nextMove = .inc) (hinc : incEnabled s.afterTurn = true) : Turn s (takeInterrupt s.afterTurn)
  | interruptOff (hm : s.nextMove = .inc) (hinc : incEnabled s.afterTurn = false) : Turn s s.afterTurn
  | portBusy {w : CmdWord} (hm : s.nextMove = .issue w) (hb : s.busy = true) : Turn s s.afterTurn
  | illegal {w : CmdWord} {r : Reject} (hm : s.nextMove = .issue w) (hb : s.busy = false) (hd : decode w = .error r) :
      Turn s (raise .illegal s.afterTurn)
  | absent {w : CmdWord} {i : Instr} (hm : s.nextMove = .issue w) (hb : s.busy = false) (hd : decode w = .ok i)
      (hp : i.presentIn s.cfg.tben = false) : Turn s (raise .absent s.afterTurn)
  | accepted {w : CmdWord} {i : Instr} (hm : s.nextMove = .issue w) (hb : s.busy = false) (hd : decode w = .ok i)
      (hp : i.presentIn s.cfg.tben = true) : Turn s (accept i s.afterTurn)
  | sequencerIdle (hm : s.nextMove = .seq) (hb : s.busy = false) : Turn s s.afterTurn
  | phase {i : Instr} {t : State} (hm : s.nextMove = .seq) (hb : s.busy = true) (hi : instrOfOpc s.opc s.arg = some i)
      (hp : i.presentIn s.cfg.tben = true) (he : phaseOf i s.afterTurn = .next t) : Turn s t
  | reset (hm : s.nextMove = .reset) : Turn s (clearRegisters s.afterTurn)

/-- Every step that goes on is one of the ways of `Turn`. -/
theorem step_turn {s t : State} (h : step s = .next t) : Turn s t := by
  cases hm : s.nextMove with
  | ev =>
    cases (step_of_nextMove hm).symm.trans h
    exact .event hm
  | inc =>
    cases (step_of_nextMove hm).symm.trans h
    split
    next hinc => exact .interrupt hm hinc
    next hinc => exact .interruptOff hm (Bool.eq_false_iff.mpr hinc)
  | issue w =>
    have hw : stepIssue w s.afterTurn = .next t := (step_of_nextMove hm).symm.trans h
    have hcases := stepIssue_cases w s.afterTurn
    simp only [afterTurn_busy, afterTurn_cfg] at hcases
    obtain ⟨hb, e⟩ | ⟨hb, ⟨r, hd⟩, e⟩ | ⟨hb, i, hd, hp, e⟩ | ⟨hb, i, hd, hp, e⟩ := hcases <;>
      cases e.symm.trans hw
    · exact .portBusy hm hb
    · exact .illegal hm hb hd
    · exact .absent hm hb hd hp
    · exact .accepted hm hb hd hp
  | seq =>
    obtain ⟨hb, rfl⟩ | ⟨hb, i, hi, hp, he⟩ := stepSeq_next ((step_of_nextMove hm).symm.trans h)
    · exact .sequencerIdle hm (by simpa using hb)
    · exact .phase hm (by simpa using hb) (by simpa using hi) (by simpa using hp) he
  | reset =>
    cases (step_of_nextMove hm).symm.trans h
    exact .reset hm

/-! ### Which phases a command has (R30, U12) -/

theorem onePhase_stuck {s : State} (h : 0 < s.ph.toNat) (f : State → State) : onePhase f s = .fault .stuckPhase := by
  have hne : s.ph ≠ 0 := fun e => by simp [e] at h
  rw [onePhase, if_neg hne]

theorem onePhase_runs {s : State} (h : s.ph.toNat ≤ 0) (f : State → State) : ∃ t, onePhase f s = .next t :=
  ⟨f s, onePhase_next.mpr ⟨BitVec.eq_of_toNat_eq (Nat.le_zero.mp h), rfl⟩⟩

theorem maskedScale_stuck {s : State} (h : 5 < s.ph.toNat) (K S : Word) :
    maskedScale K S s = .fault .stuckPhase := by
  unfold maskedScale
  split
  case h_7 => rfl
  all_goals omega

theorem maskedScale_runs {s : State} (h : s.ph.toNat ≤ 5) (K S : Word) : ∃ t, maskedScale K S s = .next t := by
  unfold maskedScale
  interval_cases s.ph.toNat <;> exact ⟨_, rfl⟩

theorem delayMicros_stuck {s : State} (h : 1 < s.ph.toNat) : delayMicros s = .fault .stuckPhase := by
  unfold delayMicros
  split
  case h_3 => rfl
  all_goals omega

theorem delayMicros_runs {s : State} (h : s.ph.toNat ≤ 1) : ∃ t, delayMicros s = .next t := by
  unfold delayMicros
  interval_cases s.ph.toNat <;> exact ⟨_, rfl⟩

theorem delayMillis_stuck {s : State} (h : 2 < s.ph.toNat) : delayMillis s = .fault .stuckPhase := by
  unfold delayMillis
  split
  case h_4 => rfl
  all_goals omega

theorem delayMillis_runs {s : State} (h : s.ph.toNat ≤ 2) : ∃ t, delayMillis s = .next t := by
  unfold delayMillis
  interval_cases s.ph.toNat <;> exact ⟨_, rfl⟩

/-- Past the command's last phase there is no step. -/
theorem phaseOf_stuck {i : Instr} {s : State} (h : lastPhase i < s.ph.toNat) : phaseOf i s = .fault .stuckPhase := by
  cases i with
  | rdms => exact maskedScale_stuck h _ _
  | rdus => exact maskedScale_stuck h _ _
  | dlyus us => exact delayMicros_stuck h
  | dlyms ms => exact delayMillis_stuck h
  | ieset _ | rlms _ | rlus _ => unfold phaseOf; exact onePhase_stuck h _
  | _ => exact onePhase_stuck h _

/-- Up to the command's last phase the sequencer goes on. -/
theorem phaseOf_runs {i : Instr} {s : State} (h : s.ph.toNat ≤ lastPhase i) : ∃ t, phaseOf i s = .next t := by
  cases i with
  | rdms => exact maskedScale_runs h _ _
  | rdus => exact maskedScale_runs h _ _
  | dlyus us => exact delayMicros_runs h
  | dlyms ms => exact delayMillis_runs h
  | ieset _ | rlms _ | rlus _ => unfold phaseOf; exact onePhase_runs h _
  | _ => exact onePhase_runs h _

/-! ### The invariant (R38) -/

/-- An idle TBU meets the invariant when `PH = 0` and a build without a timebase has not counted. -/
theorem Inv.of_idle {s : State} (hb : s.busy = false) (hph : s.ph = 0)
    (hn : s.cfg.tben = false → s.ovrf = 0 ∧ s.ovp = false) : Inv s where
  idle _ := hph
  legal h := by simp [hb] at h
  masked h := by simp [hb] at h
  noTimebase := hn
  snapshot h := by simp [hb] at h
  micros h := by simp [hb] at h
  millis h := by simp [hb] at h

/-- The command `i` is in progress: what `Inv` says of a busy TBU whatever the command. -/
structure InProgress (i : Instr) (s : State) : Prop where
  busy : s.busy = true
  word : decode (s.opc ++ s.arg) = .ok i
  present : i.presentIn s.cfg.tben = true
  phase : s.ph.toNat ≤ lastPhase i
  noTimebase : s.cfg.tben = false → s.ovrf = 0 ∧ s.ovp = false

theorem InProgress.opc_eq {i : Instr} {s : State} (h : InProgress i s) : s.opc = i.opc :=
  (opc_of_instrOfOpc (decode_append_ok.mp h.word).1).symm

/-- Under the invariant the command that `OPC` names is in progress. -/
theorem Inv.inProgress {i : Instr} {s : State} (h : Inv s) (hb : s.busy = true)
    (hi : instrOfOpc s.opc s.arg = some i) : InProgress i s := by
  obtain ⟨j, hword, hpres, hph⟩ := h.legal hb
  obtain rfl : i = j := Option.some.inj (hi.symm.trans (decode_append_ok.mp hword).1)
  exact ⟨hb, hword, hpres, hph, h.noTimebase⟩

/-- A phase that does not end the command leaves it in progress. -/
theorem InProgress.next {i : Instr} {s t : State} (h : InProgress i s) (he : phaseOf i s = .next t)
    (hb : t.busy = true) (hph : t.ph.toNat ≤ lastPhase i) : InProgress i t := by
  obtain ⟨hcfg, hovrf, hovp, -, hopc, harg, -, -⟩ := phaseOf_keeps he
  exact ⟨hb, by rw [hopc, harg]; exact h.word, hcfg ▸ h.present, hph, by rw [hcfg, hovrf, hovp]; exact h.noTimebase⟩

/-- The invariant of a command in progress at phase 0: the latches hold nothing yet. -/
theorem InProgress.inv_of_start {i : Instr} {s : State} (h : InProgress i s) (hph : s.ph = 0) : Inv s where
  idle _ := hph
  legal _ := ⟨i, h.word, h.present, h.phase⟩
  masked _ _ h1 := by simp [hph] at h1
  noTimebase := h.noTimebase
  snapshot _ _ h1 := by simp [hph] at h1
  micros _ _ h1 := by simp [hph] at h1
  millis _ _ := by simp [hph]

/-- The invariant of a masked read in progress. -/
theorem InProgress.inv_of_maskedRead {i : Instr} {s : State} (h : InProgress i s) (hop : isMaskedRead s)
    (hie : s.ie = false) (hsnap : ∀ k : Fin 4, k.val + 1 < s.ph.toNat → byteOf s.snap k = byteOf s.ovrf k) : Inv s where
  idle hb := by simp [h.busy] at hb
  legal _ := ⟨i, h.word, h.present, h.phase⟩
  masked _ _ _ := hie
  noTimebase := h.noTimebase
  snapshot _ _ _ := hsnap
  micros _ ho := by simp [isMaskedRead, ho] at hop
  millis _ ho := by simp [isMaskedRead, ho] at hop

/-- The invariant of a `DLYUS` in progress. -/
theorem InProgress.inv_of_micros {i : Instr} {s : State} (h : InProgress i s) (hop : s.opc = 0x30)
    (hloop : s.ph = 1 → s.cfg.min < argMicros s ∧ s.iter.toNat ≤ (s.cfg.iters (argMicros s)).toNat) : Inv s where
  idle hb := by simp [h.busy] at hb
  legal _ := ⟨i, h.word, h.present, h.phase⟩
  masked _ hm := by simp [isMaskedRead, hop] at hm
  noTimebase := h.noTimebase
  snapshot _ hm := by simp [isMaskedRead, hop] at hm
  micros _ _ := hloop
  millis _ ho := by simp [hop] at ho

/-- The invariant of a `DLYMS` in progress. -/
theorem InProgress.inv_of_millis {i : Instr} {s : State} (h : InProgress i s) (hop : s.opc = 0x31)
    (hnext : s.ph = 1 → s.msrem.toNat ≤ s.arg.toNat)
    (hloop : s.ph = 2 →
      s.msrem.toNat < s.arg.toNat ∧ s.cfg.min.toNat < 1000 ∧ s.iter.toNat ≤ (s.cfg.iters 1000).toNat) : Inv s where
  idle hb := by simp [h.busy] at hb
  legal _ := ⟨i, h.word, h.present, h.phase⟩
  masked _ hm := by simp [isMaskedRead, hop] at hm
  noTimebase := h.noTimebase
  snapshot _ hm := by simp [isMaskedRead, hop] at hm
  micros _ ho := by simp [hop] at ho
  millis _ _ := ⟨hnext, hloop⟩

/-- `ARG[15:0]` is all of `ARG` for the word of a `DLYUS`. -/
theorem InProgress.argMicros_toNat {us : BitVec 16} {s : State} (h : InProgress (.dlyus us) s) :
    (argMicros s).toNat = s.arg.toNat := by
  have hlt := (ushiftRight_eq_zero_iff s.arg 16).mp (decode_append_ok.mp h.word).2
  simpa [argMicros] using hlt

/-- Counting a word down by one, not from 0. -/
theorem toNat_sub_one {v : Word} (h : v ≠ 0) : (v - 1).toNat + 1 = v.toNat := by bv_omega

/-! Each phase keeps the invariant: a masked read stays masked and copies bytes of a constant counter (R62, R113), a loop
only counts down what was loaded (R131, R134), and a completed command leaves an idle TBU. -/

theorem maskedRead_keeps_inv {i : Instr} {K S : Word} {s t : State} (hs : Inv s) (hp : InProgress i s)
    (hop : isMaskedRead s) (hlast : lastPhase i = 5) (he : phaseOf i s = .next t)
    (h : maskedScale K S s = .next t) : Inv t := by
  obtain ⟨-, rfl⟩ | ⟨k, hph, rfl⟩ | ⟨-, rfl⟩ := maskedScale_next h
  · have hp' := hp.next he hp.busy (by simp [hlast])
    exact hp'.inv_of_maskedRead hop rfl (fun k hk => by simp at hk)
  · have hk := k.isLt
    have hph : s.ph.toNat = k.val + 1 := by rw [hph, BitVec.toNat_ofNat]; omega
    have hph' : (BitVec.ofNat 3 (k.val + 2)).toNat = k.val + 2 := by rw [BitVec.toNat_ofNat]; omega
    have hp' := hp.next he hp.busy (by simp only [goto_ph, hlast, hph']; omega)
    refine hp'.inv_of_maskedRead hop (hs.masked hp.busy hop (by omega)) (fun j hj => ?_)
    simp only [goto_ph, hph', goto_snap, copyByte_snap, goto_ovrf, copyByte_ovrf, byteOf_setByte] at hj ⊢
    split
    next hjk => rw [hjk, memRead]
    next hjk =>
      have hjk : j.val ≠ k.val := fun e => hjk (Fin.ext e)
      exact hs.snapshot hp.busy hop (by omega) j (by omega)
  · exact .of_idle rfl rfl hs.noTimebase

theorem delayMicros_keeps_inv {us : BitVec 16} {s t : State} (hs : Inv s) (hp : InProgress (.dlyus us) s)
    (h : delayMicros s = .next t) : Inv t := by
  have hop : s.opc = 0x30 := hp.opc_eq
  obtain ⟨-, -, rfl⟩ | ⟨-, hmin, rfl⟩ | ⟨-, -, rfl⟩ | ⟨hph, hiter, rfl⟩ := delayMicros_next h
  · exact .of_idle rfl rfl hs.noTimebase
  · have hmin : s.cfg.min < argMicros s := by rw [BitVec.lt_def, hp.argMicros_toNat]; exact hmin
    have hp' := hp.next h hp.busy le_rfl
    exact hp'.inv_of_micros hop (fun _ => ⟨hmin, le_rfl⟩)
  · exact .of_idle rfl rfl hs.noTimebase
  · obtain ⟨hmin, hle⟩ := hs.micros hp.busy hop hph
    have hp' := hp.next h hp.busy hp.phase
    have hdown : (s.iter - 1).toNat ≤ (s.cfg.iters (argMicros s)).toNat := by have := toNat_sub_one hiter; omega
    exact hp'.inv_of_micros hop (fun _ => ⟨hmin, hdown⟩)

theorem delayMillis_keeps_inv {ms : Word} {s t : State} (hs : Inv s) (hp : InProgress (.dlyms ms) s)
    (h : delayMillis s = .next t) : Inv t := by
  have hop : s.opc = 0x31 := hp.opc_eq
  obtain ⟨hnext, hloop⟩ := hs.millis hp.busy hop
  obtain ⟨-, rfl⟩ | ⟨-, -, rfl⟩ | ⟨hph, hrem, -, rfl⟩ | ⟨hph, hrem, hmin, rfl⟩ | ⟨hph, -, rfl⟩ | ⟨hph, hiter, rfl⟩ :=
    delayMillis_next h
  · have hp' := hp.next h hp.busy (by simp [lastPhase])
    exact hp'.inv_of_millis hop (fun _ => le_rfl) (fun e => by simp at e)
  · exact .of_idle rfl rfl hs.noTimebase
  · have hp' := hp.next h hp.busy (by simp [lastPhase])
    have hle := hnext hph
    have hdown := toNat_sub_one hrem
    refine hp'.inv_of_millis hop (fun _ => ?_) (fun e => by simp at e)
    simp only [goto_msrem, loadMsrem_msrem, goto_arg, loadMsrem_arg]
    omega
  · have hp' := hp.next h hp.busy le_rfl
    have hle := hnext hph
    have hdown := toNat_sub_one hrem
    refine hp'.inv_of_millis hop (fun e => by simp at e) (fun _ => ⟨?_, hmin, le_rfl⟩)
    simp only [goto_msrem, loadIter_msrem, loadMsrem_msrem, goto_arg, loadIter_arg, loadMsrem_arg]
    omega
  · have hp' := hp.next h hp.busy (by simp [lastPhase])
    exact hp'.inv_of_millis hop (fun _ => (hloop hph).1.le) (fun e => by simp at e)
  · obtain ⟨hlt, hmin, hle⟩ := hloop hph
    have hp' := hp.next h hp.busy hp.phase
    have hdown := toNat_sub_one hiter
    refine hp'.inv_of_millis hop (fun _ => hlt.le) (fun _ => ⟨hlt, hmin, ?_⟩)
    simp only [loadIter_iter, loadIter_cfg]
    omega

/-- A SEQ step of the command in progress keeps the invariant. -/
theorem phaseOf_keeps_inv {i : Instr} {s t : State} (hs : Inv s) (hp : InProgress i s) (he : phaseOf i s = .next t) :
    Inv t := by
  obtain ⟨-, -, v, rfl⟩ | ⟨-, -, rfl⟩ | ⟨rfl, h⟩ | ⟨rfl, h⟩ | ⟨⟨us, rfl⟩, h⟩ | ⟨⟨ms, rfl⟩, h⟩ := phaseOf_next he
  · exact .of_idle rfl rfl hs.noTimebase
  · exact .of_idle rfl rfl hs.noTimebase
  · exact maskedRead_keeps_inv hs hp (.inl hp.opc_eq) rfl he h
  · exact maskedRead_keeps_inv hs hp (.inr hp.opc_eq) rfl he h
  · exact delayMicros_keeps_inv hs hp h
  · exact delayMillis_keeps_inv hs hp h

/-- Using up a move writes no register. -/
theorem Inv.afterTurn {s : State} (h : Inv s) : Inv s.afterTurn := by
  unfold State.afterTurn
  split <;>
    exact ⟨h.idle, h.legal, h.masked, h.noTimebase, h.snapshot, h.micros, h.millis⟩

/-- EV touches `OVP` alone, and that only in a build with a timebase. -/
theorem setPending_keeps_inv {s : State} (h : Inv s) : Inv (setPending s) where
  idle := h.idle
  legal := h.legal
  masked := h.masked
  noTimebase htb := ⟨(h.noTimebase htb).1, by rw [setPending_ovp, (h.noTimebase htb).2]; exact htb⟩
  snapshot := h.snapshot
  micros := h.micros
  millis := h.millis

/-- INC is taken only with `IE = 1`, and a masked read past phase 0 holds `IE = 0`: the counter does not move under the bytes
copied so far (R62). -/
theorem takeInterrupt_keeps_inv {s : State} (h : Inv s) (hinc : incEnabled s = true) : Inv (takeInterrupt s) := by
  obtain ⟨⟨htb, hie⟩, -⟩ : (s.cfg.tben = true ∧ s.ie = true) ∧ s.ovp = true := by simpa [incEnabled] using hinc
  exact
    { idle := h.idle
      legal := h.legal
      masked := h.masked
      noTimebase := fun hno => absurd (htb.symm.trans hno) (by decide)
      snapshot := fun hb hop hph => absurd (hie.symm.trans (h.masked hb hop hph)) (by decide)
      micros := h.micros
      millis := h.millis }

/-- A refused word leaves the TBU as it was, but for `FAULT` and the response. -/
theorem raise_keeps_inv {s : State} (h : Inv s) (st : Status) : Inv (raise st s) :=
  ⟨h.idle, h.legal, h.masked, h.noTimebase, h.snapshot, h.micros, h.millis⟩

/-- An accepted command is in progress. -/
theorem accept_inProgress {i : Instr} {s : State} (h : Inv s) (hp : i.presentIn s.cfg.tben = true) :
    InProgress i (accept i s) where
  busy := rfl
  word := decode_encode i
  present := hp
  phase := Nat.zero_le _
  noTimebase := h.noTimebase

/-- Settles O3: one lemma for each way a turn can go; for SEQ, one for each kind of phase. -/
theorem everyStepKeepsInvariant : Obligations.EveryStepKeepsInvariant := by
  intro s t hs h
  have hu := hs.afterTurn
  cases step_turn h with
  | event => exact setPending_keeps_inv hu
  | interrupt _ hinc => exact takeInterrupt_keeps_inv hu hinc
  | interruptOff | portBusy | sequencerIdle => exact hu
  | illegal | absent => exact raise_keeps_inv hu _
  | accepted _ _ _ hp => exact (accept_inProgress hu (by simpa using hp)).inv_of_start rfl
  | phase _ hb hi _ he => exact phaseOf_keeps_inv hu (hu.inProgress (by simpa using hb) (by simpa using hi)) he
  | reset => exact .of_idle rfl rfl (fun _ => ⟨rfl, rfl⟩)

/-- Settles O2: every register of the booted state is 0, and an idle TBU with a zero counter meets the invariant. -/
theorem resetStateMeetsInvariant : Obligations.ResetStateMeetsInvariant :=
  ⟨⟨rfl, rfl, rfl, rfl, rfl, rfl, rfl, rfl, rfl, rfl, rfl, rfl⟩, State.reset.wf, .of_idle rfl rfl fun _ => ⟨rfl, rfl⟩⟩

/-! ### Where the machine stops (U12) -/

/-- A busy sequencer with a command of the build at one of its phases has a step. -/
theorem step_seq_runs {s : State} {i : Instr} (hm : s.nextMove = .seq) (hb : s.busy = true)
    (hi : instrOfOpc s.opc s.arg = some i) (hp : i.presentIn s.cfg.tben = true) (hph : s.ph.toNat ≤ lastPhase i) :
    ∃ t, step s = .next t := by
  rw [step_seq_exec hm hb hi, exec_busy (by simpa using hb) (by simpa using hp)]
  exact phaseOf_runs (by simpa using hph)

/-- Settles O5: the sequencer runs the command `OPC` names, whose phases are 0 to its last. -/
theorem sequencerStopsExactlyInStuckStates : Obligations.SequencerStopsExactlyInStuckStates := by
  refine ⟨fun s hm hb hi => ?_, fun s i hm hb hi hp => ?_, fun s i hm hb hi hp hph => ?_,
    fun s i hm hb hi hp hph => step_seq_runs hm hb hi hp hph⟩
  · exact (step_of_nextMove hm).trans (stepSeq_of_unassigned (by simpa using hb) (by simpa using hi))
  · rw [step_seq_exec hm hb hi, exec_eq, runCommand_absent (by simpa using hb) (by simpa using hp)]
  · rw [step_seq_exec hm hb hi, exec_busy (by simpa using hb) (by simpa using hp), phaseOf_stuck (by simpa using hph)]

/-- Settles O4: a SEQ turn of a busy TBU finds a legal command at one of its phases, and no other turn can stop. -/
theorem invariantStatesNeverStop : Obligations.InvariantStatesNeverStop := by
  intro s hs
  cases hm : s.nextMove with
  | ev => exact ⟨_, step_of_nextMove hm⟩
  | inc => exact ⟨_, step_of_nextMove hm⟩
  | issue w =>
    rw [step_of_nextMove hm]
    obtain ⟨-, e⟩ | ⟨-, -, e⟩ | ⟨-, i, -, -, e⟩ | ⟨-, i, -, -, e⟩ := stepIssue_cases w s.afterTurn <;>
      exact ⟨_, e⟩
  | seq =>
    cases hb : s.busy with
    | false => exact ⟨s.afterTurn, by rw [step_of_nextMove hm]; simp [runMove, stepSeq, hb]⟩
    | true =>
      obtain ⟨i, hword, hpres, hph⟩ := hs.legal hb
      exact step_seq_runs hm hb (decode_append_ok.mp hword).1 hpres hph
  | reset => exact ⟨_, step_of_nextMove hm⟩

/-! ### The access matrix (R36) -/

theorem maskedScale_frame {K S : Word} {s t : State} (h : maskedScale K S s = .next t) :
    t = { s with ie := t.ie, iesave := t.iesave, snap := t.snap, busy := t.busy, ph := t.ph, resp := t.resp } := by
  obtain ⟨-, rfl⟩ | ⟨k, -, rfl⟩ | ⟨-, rfl⟩ := maskedScale_next h <;> rfl

theorem delayMicros_frame {s t : State} (h : delayMicros s = .next t) :
    t = { s with iter := t.iter, busy := t.busy, ph := t.ph, resp := t.resp } := by
  obtain ⟨-, -, rfl⟩ | ⟨-, -, rfl⟩ | ⟨-, -, rfl⟩ | ⟨-, -, rfl⟩ := delayMicros_next h <;> rfl

theorem delayMillis_frame {s t : State} (h : delayMillis s = .next t) :
    t = { s with msrem := t.msrem, iter := t.iter, busy := t.busy, ph := t.ph, resp := t.resp } := by
  obtain ⟨-, rfl⟩ | ⟨-, -, rfl⟩ | ⟨-, -, -, rfl⟩ | ⟨-, -, -, rfl⟩ | ⟨-, -, rfl⟩ | ⟨-, -, rfl⟩ :=
    delayMillis_next h <;> rfl

/-- Settles O8: the registers each way of a turn writes; for SEQ, those of the phase that `OPC` selects. -/
theorem stepsWriteOnlyListedRegisters : Obligations.StepsWriteOnlyListedRegisters := by
  intro s t h
  cases step_turn h with
  | event hm => rw [hm]; rfl
  | interrupt hm => rw [hm]; rfl
  | interruptOff hm => rw [hm]
  | portBusy hm hb => simp only [hm, hb, if_true]
  | illegal hm hb hd =>
    simp only [hm, hb, Bool.false_eq_true, if_false]
    exact ⟨fun ⟨j, hj, _⟩ => (nomatch hd.symm.trans hj), fun _ => rfl⟩
  | absent hm hb hd hp =>
    simp only [hm, hb, Bool.false_eq_true, if_false]
    refine ⟨fun ⟨j, hj, hpj⟩ => ?_, fun _ => rfl⟩
    cases hd.symm.trans hj
    exact absurd (hp.symm.trans hpj) (by decide)
  | accepted hm hb hd hp =>
    simp only [hm, hb, Bool.false_eq_true, if_false]
    exact ⟨fun _ => rfl, fun hno => absurd ⟨_, hd, hp⟩ hno⟩
  | sequencerIdle hm hb => simp only [hm, hb, if_true]
  | phase hm hb hi _ he =>
    simp only [hm, hb, Bool.true_eq_false, if_false, ← opc_of_instrOfOpc hi]
    obtain ⟨-, -, v, rfl⟩ | ⟨⟨b, rfl⟩, -, rfl⟩ | ⟨rfl, h⟩ | ⟨rfl, h⟩ | ⟨⟨us, rfl⟩, h⟩ | ⟨⟨ms, rfl⟩, h⟩ := phaseOf_next he
    · split_ifs <;> rfl
    · rfl
    · exact maskedScale_frame h
    · exact maskedScale_frame h
    · exact delayMicros_frame h
    · exact delayMillis_frame h
  | reset hm =>
    rw [hm]
    exact ⟨afterTurn_cfg s, afterTurn_resp s, rfl, rfl⟩

/-- A step that is no RESET keeps `FAULT`, or is the ISSUE of a refused word and sets it (R31, R164). -/
theorem step_fault_cases {s t : State} (h : step s = .next t) (hreset : s.nextMove ≠ .reset) :
    t.fault = s.fault ∨ t.fault = true ∧ ∃ w, s.nextMove = .issue w ∧ s.busy = false ∧ t.busy = false ∧
      (t.resp = some (respWord .illegal 0) ∨ t.resp = some (respWord .absent 0)) := by
  cases step_turn h with
  | illegal hm hb => exact .inr ⟨rfl, _, hm, hb, by simpa using hb, .inl rfl⟩
  | absent hm hb => exact .inr ⟨rfl, _, hm, hb, by simpa using hb, .inr rfl⟩
  | phase _ _ _ _ he =>
    obtain ⟨-, -, -, hfault, -⟩ := phaseOf_keeps he
    exact .inl (hfault.trans (afterTurn_fault s))
  | reset hm => exact absurd hm hreset
  | event | interrupt | interruptOff | portBusy | accepted | sequencerIdle => exact .inl (afterTurn_fault s)

/-- Settles O25: only RESET and a refused word write `FAULT`. -/
theorem faultFlagIsSticky : Obligations.FaultFlagIsSticky := by
  intro s t h hreset
  obtain hkept | ⟨hset, hrefused⟩ := step_fault_cases h hreset
  · exact ⟨hkept.trans, fun h0 h1 => absurd (h1.symm.trans (hkept.trans h0)) (by decide)⟩
  · exact ⟨fun _ => hset, fun _ _ => hrefused⟩

/-! ### The command a step runs (R35, R74) -/

/-- Settles O14: `step` hands the decoded command to `exec`, from the command port or from `OPC`. -/
theorem stepRunsDecodedCommand : Obligations.StepRunsDecodedCommand := by
  refine ⟨fun s w i => step_issue_exec, fun s i => step_seq_exec, fun s nbits w i hd => ?_⟩
  have hword : decode (tableWord nbits w) = .ok i := by
    unfold decodeTableWord at hd
    split at hd <;> cases hd
    assumption
  obtain ⟨hm, hu⟩ := present_spec (tableWord nbits w) s
  rw [State.withFetchWord, step_issue_exec hm rfl hword, hu]

/-- Settles O15: a word that decodes to a command is that command's one word, and ISSUE latches the command's opcode and
operand. -/
theorem issueLatchesTheWordItRuns : Obligations.IssueLatchesTheWordItRuns := by
  intro s w i hm hb hd hp
  have hstep : step s = .next (accept i s.afterTurn) := by
    rw [step_issue_exec hm hb hd, exec_idle (by simpa using hb), issue_present (by simpa using hp)]
  exact ⟨_, hstep, rfl, rfl, afterTurn_resp s, encode_of_decode hd, rfl, (operandLatch i).1⟩

/-! ### The status register (R32, R151) -/

/-- The bits of `STATUS`: the five flags below, zeros above. -/
theorem statusWord_getLsbD (s : State) (n : Nat) :
    (statusWord s).getLsbD n = [s.ie, s.ovp, s.fault, s.cfg.tben, s.cfg.dcal].getD n false := by
  unfold statusWord
  change BitVec.getLsbD (w := 27 + 1 + 1 + 1 + 1 + 1) _ n = _
  simp only [BitVec.getLsbD_append]
  rcases n with _ | _ | _ | _ | _ | n <;> simp

theorem statusWord_lt (s : State) : (statusWord s).toNat < 2 ^ 5 := by
  rw [← ushiftRight_eq_zero_iff]
  apply BitVec.eq_of_getLsbD_eq
  intro n _
  rw [BitVec.getLsbD_ushiftRight, statusWord_getLsbD, List.getD_eq_default _ _ (by simp)]
  simp

/-- Settles O27: RDST completes with `STATUS`. -/
theorem rdstReadsStatus : Obligations.RdstReadsStatus := by
  refine ⟨rfl, fun w ho hr => ?_, fun s hb => ?_, fun s hb hph => ⟨statusWord s, ?_, ?_⟩⟩
  · exact decode_reserved (i := .rdst) (by rw [ho]; rfl) (by simpa [Instr.format, Format.usedBits] using hr)
  · rw [exec_idle hb, issue_present rfl]
    rfl
  · rw [exec_busy hb rfl]
    exact onePhase_next.mpr ⟨hph, rfl⟩
  · simp only [statusWord_getLsbD]
    exact ⟨rfl, rfl, rfl, rfl, rfl, statusWord_lt s⟩

end Sys2Proof.Machine
end

section
/-! PROOFS. The counter byte space (spec 20_memory.md): what changes a byte of it, the byte reads, masked and unmasked, and the
clock reads over a masked counter. -/

namespace Sys2Proof.Machine

/-! ### What changes the counter (R52, R58) -/

/-- A step keeps the counter, or is a taken interrupt and adds one to it, or is RESET and clears it. -/
theorem step_ovrf_cases {s t : State} (h : step s = .next t) :
    t.ovrf = s.ovrf ∨
    (s.nextMove = .inc ∧ incEnabled s = true ∧ t.ovrf = s.ovrf + 1) ∨
    (s.nextMove = .reset ∧ t.ovrf = 0) := by
  cases step_turn h with
  | interrupt hm hinc => exact .inr (.inl ⟨hm, by simpa [incEnabled] using hinc, by simp⟩)
  | reset hm => exact .inr (.inr ⟨hm, rfl⟩)
  | phase _ _ _ _ he =>
    obtain ⟨-, hovrf, -⟩ := phaseOf_keeps he
    exact .inl (hovrf.trans (afterTurn_ovrf s))
  | event | interruptOff | portBusy | illegal | absent | accepted | sequencerIdle => exact .inl (afterTurn_ovrf s)

/-- Settles O9: a byte of the space is a byte of `OVRF`. -/
theorem onlyInterruptOrResetWritesCounterBytes : Obligations.OnlyInterruptOrResetWritesCounterBytes := by
  intro s t h
  obtain hkept | ⟨hm, hinc, hadd⟩ | ⟨hm, hzero⟩ := step_ovrf_cases h
  · exact .inl fun k => by rw [memRead, memRead, hkept]
  · obtain ⟨⟨htb, hie⟩, hovp⟩ : (s.cfg.tben = true ∧ s.ie = true) ∧ s.ovp = true := by simpa [incEnabled] using hinc
    exact .inr (.inl ⟨hm, htb, hie, hovp, by rw [hadd, BitVec.toNat_add]; rfl⟩)
  · exact .inr (.inr ⟨hm, fun k => by rw [memRead, hzero]; exact BitVec.extractLsb'_zero⟩)

/-- With `IE = 0` no move but RESET changes the counter. -/
theorem stepWith_ovrf_of_masked {m : Move} {s t : State} (h : stepWith m s = .next t) (hreset : m ≠ .reset)
    (hie : s.ie = false) : t.ovrf = s.ovrf := by
  obtain hkept | ⟨-, hinc, -⟩ | ⟨hm, -⟩ := step_ovrf_cases h
  · exact hkept
  · simp [incEnabled, hie] at hinc
  · exact absurd hm hreset

/-- Settles O34, by induction on the schedule: the counter is kept by the first move, then by the rest. -/
theorem counterConstantWhileMasked : Obligations.CounterConstantWhileMasked := by
  intro ms
  induction ms with
  | nil =>
    intro s t _ _ h
    cases h
    rfl
  | cons m ms ih =>
    intro s t hreset hmasked h
    obtain ⟨u, hu, ht⟩ := runMoves_cons_next.mp h
    rw [List.mem_cons, not_or] at hreset
    have hfirst : u.ovrf = s.ovrf :=
      stepWith_ovrf_of_masked hu (Ne.symm hreset.1) (hmasked 0 (Nat.zero_lt_succ _) s rfl)
    have hrest : t.ovrf = u.ovrf :=
      ih u t hreset.2
        (fun n hn v hv => hmasked (n + 1) (Nat.succ_lt_succ hn) v (runMoves_cons_next.mpr ⟨u, hu, hv⟩)) ht
    exact hrest.trans hfirst

/-! ### The byte reads (R95 to R98) -/

/-- Byte `k` of a word is what `k` divisions by 256 bring to the bottom (R53). -/
theorem byteOf_toNat (v : Word) (k : Fin 4) : (byteOf v k).toNat = v.toNat / 256 ^ k.val % 256 := by
  rw [byteOf, BitVec.extractLsb'_toNat, Nat.shiftRight_eq_div_pow, Nat.pow_mul]

@[simp] theorem readCommand_opc (k : Fin 4) : (readCommand k).opc = 0x10 + BitVec.ofNat 8 k.val := by
  revert k; decide

@[simp] theorem readCommand_operand (k : Fin 4) : (readCommand k).operand = 0 := by
  revert k; decide

@[simp] theorem readCommand_format (k : Fin 4) : (readCommand k).format = .c0 := by
  revert k; decide

/-- A byte read exists exactly in a build with the timebase (R76). -/
@[simp] theorem readCommand_presentIn (k : Fin 4) (tben : Bool) : (readCommand k).presentIn tben = tben := by
  revert k tben; decide

theorem phaseOf_readCommand (k : Fin 4) : phaseOf (readCommand k) = readByte k := by
  fin_cases k <;> rfl

theorem instrOfOpc_readCommand (k : Fin 4) (a : Word) :
    instrOfOpc (0x10 + BitVec.ofNat 8 k.val) a = some (readCommand k) := by
  fin_cases k <;> rfl

/-- Settles O30: ISSUE accepts or refuses by `TBEN` alone, and the one phase responds with the byte. -/
theorem byteReadsReturnCounterBytes : Obligations.ByteReadsReturnCounterBytes := by
  refine ⟨by decide, fun k w ho hr => ?_, fun k s hb htb => ?_, fun k s hb htb => ?_, fun k s hb htb hph => ?_⟩
  · exact decode_reserved (by rw [ho]; exact instrOfOpc_readCommand k _) (by simpa [Format.usedBits] using hr)
  · rw [exec_idle hb, issue_present (by simpa using htb), accept, readCommand_opc, readCommand_operand]
  · rw [exec_idle hb, issue_absent (by simpa using htb)]
    rfl
  · refine ⟨(memRead s k).setWidth 32, ?_, ?_⟩
    · rw [exec_busy hb (by simpa using htb), phaseOf_readCommand]
      exact onePhase_next.mpr ⟨hph, rfl⟩
    · rw [BitVec.toNat_setWidth_of_le (by decide), memRead, byteOf_toNat]

/-! ### Runs and their responses -/

/-- The run of the schedule from `s` goes on to `t` and emits exactly these responses. -/
structure RunEmits (ms : List Move) (s : State) (rs : List RespWord) (t : State) : Prop where
  runs : runMoves ms s = .next t
  emits : responses ms s = rs

theorem RunEmits.nil (s : State) : RunEmits [] s [] s := ⟨rfl, rfl⟩

theorem RunEmits.cons {m : Move} {ms : List Move} {s u t : State} {rs : List RespWord} (hm : stepWith m s = .next u)
    (h : RunEmits ms u rs t) : RunEmits (m :: ms) s (u.resp.toList ++ rs) t :=
  ⟨runMoves_cons_next.mpr ⟨u, hm, h.runs⟩, by rw [responses_cons hm, h.emits]⟩

theorem RunEmits.single {m : Move} {s t : State} (hm : stepWith m s = .next t) : RunEmits [m] s t.resp.toList t := by
  simpa using RunEmits.cons hm (.nil t)

theorem RunEmits.append {ms ns : List Move} {s u t : State} {rs qs : List RespWord} (hm : RunEmits ms s rs u)
    (hn : RunEmits ns u qs t) : RunEmits (ms ++ ns) s (rs ++ qs) t :=
  ⟨runMoves_append_next.mpr ⟨u, hm.runs, hn.runs⟩, by rw [responses_append hm.runs, hm.emits, hn.emits]⟩

/-- The state a move of a run acts on: the response pulse is over (R70), and no move after this one is written out. -/
def State.pulseOver (s : State) : State := { s with resp := none, moves := [] }

@[simp] theorem pulseOver_cfg (s : State) : s.pulseOver.cfg = s.cfg := rfl
@[simp] theorem pulseOver_ie (s : State) : s.pulseOver.ie = s.ie := rfl
@[simp] theorem pulseOver_resp (s : State) : s.pulseOver.resp = none := rfl

theorem stepWith_eq_runMove (m : Move) (s : State) : stepWith m s = runMove m s.pulseOver := rfl

/-- ISSUE of a command of the build is accepted by an idle TBU. -/
theorem stepWith_issue {i : Instr} {s : State} (hb : s.busy = false) (hp : i.presentIn s.cfg.tben = true) :
    stepWith (.issue (encode i)) s = .next (accept i s.pulseOver) :=
  calc stepWith (.issue (encode i)) s
      = stepIssue (encode i) s.pulseOver := stepWith_eq_runMove _ s
    _ = exec i s.pulseOver := stepIssue_of_decode (s := s.pulseOver) hb (decode_encode i)
    _ = .next (issue i s.pulseOver) := exec_idle (s := s.pulseOver) hb i
    _ = .next (accept i s.pulseOver) := congrArg _ (issue_present (s := s.pulseOver) hp)

/-- SEQ of a busy TBU runs the phase of the command of the build that `OPC` names. -/
theorem stepWith_seq {i : Instr} {s : State} (hb : s.busy = true) (hi : instrOfOpc s.opc s.arg = some i)
    (hp : i.presentIn s.cfg.tben = true) : stepWith .seq s = phaseOf i s.pulseOver :=
  calc stepWith .seq s
      = stepSeq s.pulseOver := stepWith_eq_runMove _ s
    _ = exec i s.pulseOver := stepSeq_of_instrOfOpc (s := s.pulseOver) hb hi
    _ = phaseOf i s.pulseOver := exec_busy (s := s.pulseOver) hb hp

/-! ### Events and turns of the interrupt agent (R90, R91) -/

/-- What the events and turns of the interrupt agent in `ms` leave of `s`: the command in progress, `IE`, and the counter
unless a turn of the agent finds interrupts on. -/
structure Interrupted (ms : List Move) (s t : State) : Prop where
  cfg : t.cfg = s.cfg
  ie : t.ie = s.ie
  busy : t.busy = s.busy
  opc : t.opc = s.opc
  arg : t.arg = s.arg
  ph : t.ph = s.ph
  ovrf : s.ie = false ∨ Move.inc ∉ ms → t.ovrf = s.ovrf

theorem Interrupted.nil (s : State) : Interrupted [] s s := ⟨rfl, rfl, rfl, rfl, rfl, rfl, fun _ => rfl⟩

theorem Interrupted.cons {m : Move} {ms : List Move} {s u t : State} (hm : Interrupted [m] s u)
    (h : Interrupted ms u t) : Interrupted (m :: ms) s t where
  cfg := h.cfg.trans hm.cfg
  ie := h.ie.trans hm.ie
  busy := h.busy.trans hm.busy
  opc := h.opc.trans hm.opc
  arg := h.arg.trans hm.arg
  ph := h.ph.trans hm.ph
  ovrf hkeep := by
    simp only [List.mem_cons, not_or] at hkeep
    have hfirst : u.ovrf = s.ovrf := hm.ovrf (hkeep.imp_right fun hno => by simpa using hno.1)
    have hrest : t.ovrf = u.ovrf := h.ovrf (hkeep.imp (hm.ie.trans ·) (·.2))
    exact hrest.trans hfirst

theorem stepWith_ev (s : State) : stepWith .ev s = .next (setPending s.pulseOver) := rfl

theorem stepWith_inc_enabled {s : State} (h : incEnabled s = true) :
    stepWith .inc s = .next (takeInterrupt s.pulseOver) :=
  congrArg Host.Outcome.next (if_pos h)

theorem stepWith_inc_disabled {s : State} (h : incEnabled s = false) :
    stepWith .inc s = .next s.pulseOver :=
  congrArg Host.Outcome.next (if_neg (Bool.eq_false_iff.mp h))

/-- With `IE = 0` INC is disabled (R91). -/
theorem incEnabled_of_masked {s : State} (h : s.ie = false) : incEnabled s = false := by simp [incEnabled, h]

theorem interruptMove_runs {m : Move} (hm : m = .ev ∨ m = .inc) (s : State) :
    ∃ t, RunEmits [m] s [] t ∧ Interrupted [m] s t := by
  obtain rfl | rfl := hm
  · exact ⟨_, .single (stepWith_ev s), rfl, rfl, rfl, rfl, rfl, rfl, fun _ => rfl⟩
  · cases hinc : incEnabled s with
    | false => exact ⟨_, .single (stepWith_inc_disabled hinc), rfl, rfl, rfl, rfl, rfl, rfl, fun _ => rfl⟩
    | true =>
      refine ⟨_, .single (stepWith_inc_enabled hinc), rfl, rfl, rfl, rfl, rfl, rfl, fun hkeep => ?_⟩
      obtain hie | hno := hkeep
      · exact absurd (hinc.symm.trans (incEnabled_of_masked hie)) (by decide)
      · exact absurd List.mem_cons_self hno

/-- A schedule of events and turns of the interrupt agent goes on and emits nothing. -/
theorem interruptsOnly_runs {ms : List Move} (hms : interruptsOnly ms) (s : State) :
    ∃ t, RunEmits ms s [] t ∧ Interrupted ms s t := by
  induction ms generalizing s with
  | nil => exact ⟨s, .nil s, .nil s⟩
  | cons m ms ih =>
    obtain ⟨u, hu, hsu⟩ := interruptMove_runs (hms m List.mem_cons_self) s
    obtain ⟨t, ht, hut⟩ := ih (fun k hk => hms k (List.mem_cons_of_mem m hk)) u
    exact ⟨t, hu.append ht, hsu.cons hut⟩

/-- With interrupts on, an event serviced at once adds one to the counter. -/
theorem servicedEvent_runs {s : State} (htb : s.cfg.tben = true) (hie : s.ie = true) :
    ∃ t, RunEmits [.ev, .inc] s [] t ∧ t.busy = s.busy ∧ t.cfg = s.cfg ∧ t.ovrf = s.ovrf + 1 := by
  have hinc : incEnabled (setPending s.pulseOver) = true := by simp [incEnabled, htb, hie]
  exact ⟨_, (RunEmits.single (stepWith_ev s)).append (.single (stepWith_inc_enabled hinc)), rfl, rfl, rfl⟩

/-! ### Commands of one phase -/

/-- The run of a command of one phase: `u` is the state its SEQ step finds, and `f u` is what the step leaves. -/
theorem command_emits {i : Instr} {f : State → State} {s : State} {gap after : List Move}
    (hf : phaseOf i = onePhase f) (hb : s.busy = false) (hp : i.presentIn s.cfg.tben = true)
    (hgap : interruptsOnly gap) (hafter : interruptsOnly after) :
    ∃ u t, Interrupted gap (accept i s) u ∧ Interrupted after (f u) t ∧
      RunEmits (commandMoves i gap after) s (f u).resp.toList t := by
  obtain ⟨v, hv, hacc⟩ := interruptsOnly_runs hgap (accept i s.pulseOver)
  have hi : instrOfOpc v.opc v.arg = some i := by rw [hacc.opc, hacc.arg]; exact (operandLatch i).1
  have hseq : stepWith .seq v = .next (f v.pulseOver) := by
    rw [stepWith_seq hacc.busy hi (by rw [hacc.cfg]; exact hp), hf]
    exact onePhase_next.mpr ⟨hacc.ph, rfl⟩
  obtain ⟨t, ht, hend⟩ := interruptsOnly_runs hafter (f v.pulseOver)
  refine ⟨v.pulseOver, t,
    ⟨hacc.cfg, hacc.ie, hacc.busy, hacc.opc, hacc.arg, hacc.ph, hacc.ovrf⟩, hend, ?_⟩
  simpa [commandMoves] using (RunEmits.cons (stepWith_issue hb hp) hv).append (.cons hseq ht)

/-- `t` is idle, and the counter, `IE` and the configuration are those of `s`. -/
structure IdleAs (s t : State) : Prop where
  busy : t.busy = false
  cfg : t.cfg = s.cfg
  ie : t.ie = s.ie
  ovrf : t.ovrf = s.ovrf

theorem IdleAs.trans {s u t : State} (h : IdleAs s u) (h' : IdleAs u t) : IdleAs s t :=
  ⟨h'.busy, h'.cfg.trans h.cfg, h'.ie.trans h.ie, h'.ovrf.trans h.ovrf⟩

/-- A byte read with no enabled INC inside or behind it returns the byte of the counter and leaves the counter. -/
theorem readMoves_emits (k : Fin 4) {s : State} {gap after : List Move} (hb : s.busy = false)
    (htb : s.cfg.tben = true) (hgap : interruptsOnly gap) (hafter : interruptsOnly after)
    (hkeep : s.ie = false ∨ Move.inc ∉ gap ∧ Move.inc ∉ after) :
    ∃ t, RunEmits (readMoves k gap after) s [respWord .ok ((byteOf s.ovrf k).setWidth 32)] t ∧ IdleAs s t := by
  obtain ⟨u, t, hu, ht, hrun⟩ := command_emits (phaseOf_readCommand k) hb (by simpa using htb) hgap hafter
  have hie : u.ie = s.ie := hu.ie
  have hovrf : u.ovrf = s.ovrf := hu.ovrf (hkeep.imp_right (·.1))
  rw [← hovrf]
  refine ⟨t, hrun, ht.busy, ht.cfg.trans hu.cfg, ht.ie.trans hie, ?_⟩
  exact (ht.ovrf (hkeep.imp (hie.trans ·) (·.2))).trans hovrf

/-- Byte reads in any order with no enabled INC among them return bytes of the counter and leave it. -/
theorem byteReads_emit {reads : List (Fin 4 × List Move × List Move)} {s : State} (hb : s.busy = false)
    (htb : s.cfg.tben = true) (hreads : ∀ r ∈ reads, interruptsOnly r.2.1 ∧ interruptsOnly r.2.2)
    (hkeep : s.ie = false ∨ ∀ r ∈ reads, Move.inc ∉ r.2.1 ∧ Move.inc ∉ r.2.2) :
    ∃ t, RunEmits (reads.flatMap fun r => readMoves r.1 r.2.1 r.2.2) s
      (reads.map fun r => respWord .ok ((byteOf s.ovrf r.1).setWidth 32)) t ∧ IdleAs s t := by
  induction reads generalizing s with
  | nil => exact ⟨s, .nil s, hb, rfl, rfl, rfl⟩
  | cons r reads ih =>
    obtain ⟨hgap, hafter⟩ := hreads r List.mem_cons_self
    obtain ⟨u, hu, hsu⟩ := readMoves_emits r.1 hb htb hgap hafter (hkeep.imp_right (· r List.mem_cons_self))
    obtain ⟨t, ht, hut⟩ := ih hsu.busy (by rw [hsu.cfg, htb]) (fun q hq => hreads q (List.mem_cons_of_mem r hq))
      (hkeep.imp (hsu.ie.trans ·) (fun h q hq => h q (List.mem_cons_of_mem r hq)))
    rw [hsu.ovrf] at ht
    exact ⟨t, hu.append ht, hsu.trans hut⟩

/-! ### Unmasked reads (R59) -/

theorem interruptsOnly_nil : interruptsOnly [] := fun _ h => absurd h List.not_mem_nil

/-- The schedule of byte reads with nothing inside or between them. -/
def bareReads (ks : List (Fin 4)) : List Move := ks.flatMap fun k => readMoves k [] []

theorem bareReads_emit (ks : List (Fin 4)) {s : State} (hb : s.busy = false) (htb : s.cfg.tben = true) :
    ∃ t, RunEmits (bareReads ks) s (ks.map fun k => respWord .ok ((byteOf s.ovrf k).setWidth 32)) t ∧ IdleAs s t := by
  have h := byteReads_emit (reads := ks.map fun k => (k, [], [])) hb htb
    (List.forall_mem_map.mpr fun _ _ => ⟨interruptsOnly_nil, interruptsOnly_nil⟩)
    (.inr (List.forall_mem_map.mpr fun _ _ => ⟨List.not_mem_nil, List.not_mem_nil⟩))
  simpa [bareReads, List.flatMap_map, Function.comp_def] using h

/-- With interrupts on, an event between byte reads gives the later ones bytes of the next counter value. -/
theorem bareReads_torn (ks js : List (Fin 4)) {s : State} (hb : s.busy = false) (htb : s.cfg.tben = true)
    (hie : s.ie = true) :
    responses (bareReads ks ++ [.ev, .inc] ++ bareReads js) s =
      (ks.map fun k => respWord .ok ((byteOf s.ovrf k).setWidth 32)) ++
        js.map fun k => respWord .ok ((byteOf (s.ovrf + 1) k).setWidth 32) := by
  obtain ⟨t, ht, hst⟩ := bareReads_emit ks hb htb
  obtain ⟨u, hu, hub, hucfg, huovrf⟩ := servicedEvent_runs (s := t) (by rw [hst.cfg, htb]) (by rw [hst.ie, hie])
  obtain ⟨v, hv, -⟩ := bareReads_emit js (hub.trans hst.busy) (by rw [hucfg, hst.cfg, htb])
  rw [huovrf, hst.ovrf] at hv
  simpa using ((ht.append hu).append hv).emits

/-- Settles O31: the event of the schedule is counted between two reads, so bytes of two counter values are assembled. -/
theorem unmaskedReadsCanTear : Obligations.UnmaskedReadsCanTear := by
  intro s hb htb hie
  refine ⟨fun hv => ?_, by decide, fun hv => ?_, by decide⟩
  · refine (bareReads_torn [3, 2, 1] [0] hb htb hie).trans ?_
    rw [hv]
    decide
  · refine (bareReads_torn [0] [1, 2, 3] hb htb hie).trans ?_
    rw [hv]
    decide

/-! ### Masked reads (R61, R62) -/

/-- The host takes bits 7:0 of a response, which are the byte read. -/
theorem extractLsb'_setWidth_byte (b : Byte) : (b.setWidth 32 : Word).extractLsb' 0 8 = b := by
  rw [BitVec.extractLsb'_setWidth_of_le (by decide), BitVec.extractLsb'_eq_self]

/-- The four bytes of a word assemble to the word (R53): each is put back on top of those below it. -/
theorem assembleBytes_byteOf (v : Word) :
    assembleBytes ((byteOf v 0).setWidth 32) ((byteOf v 1).setWidth 32) ((byteOf v 2).setWidth 32)
      ((byteOf v 3).setWidth 32) = v := by
  simp only [assembleBytes, extractLsb'_setWidth_byte, byteOf]
  iterate 3 rw [BitVec.extractLsb'_append_extractLsb'_eq_extractLsb' (by rfl)]
  exact BitVec.extractLsb'_eq_self

/-- Settles O32: masked, no turn of the interrupt agent moves the counter under the reads. -/
theorem maskedByteReadsAreTornFree : Obligations.MaskedByteReadsAreTornFree := by
  refine ⟨fun s reads hb htb hie hreads => ?_, assembleBytes_byteOf⟩
  obtain ⟨t, ht, hst⟩ := byteReads_emit hb htb hreads (.inl hie)
  exact ⟨ht.emits, t, ht.runs, hst.ovrf, hst.ie.trans hie⟩

/-- A flag that a one-bit operand gives, as the word `IEGET` returns. -/
theorem flagWord_eq_setWidth (b : BitVec 1) : flagWord (b == 1#1) = b.setWidth 32 := by revert b; decide

/-- Bit 0 of the operand that ISSUE latches for `IESET`. -/
theorem getLsbD_operand_ieset (b : BitVec 1) : (Instr.ieset b).operand.getLsbD 0 = (b == 1#1) := by revert b; decide

/-- `IEGET` returns `IE`, with events and turns of the interrupt agent inside and behind it. -/
theorem ieget_emits {s : State} {gap after : List Move} (hb : s.busy = false) (hgap : interruptsOnly gap)
    (hafter : interruptsOnly after) :
    ∃ t, RunEmits (commandMoves .ieget gap after) s [respWord .ok (flagWord s.ie)] t ∧ t.busy = false ∧
      t.cfg = s.cfg ∧ t.ie = s.ie := by
  obtain ⟨u, t, hu, ht, hrun⟩ := command_emits (i := .ieget) rfl hb rfl hgap hafter
  have hie : u.ie = s.ie := hu.ie
  rw [← hie]
  exact ⟨t, hrun, ht.busy, ht.cfg.trans hu.cfg, ht.ie⟩

/-- `IESET` writes `IE`; masked before it and with nothing behind it, the counter stays as it is. -/
theorem ieset_emits (b : BitVec 1) {s : State} {gap after : List Move} (hb : s.busy = false) (hgap : interruptsOnly gap)
    (hafter : interruptsOnly after) :
    ∃ t, RunEmits (commandMoves (.ieset b) gap after) s [respWord .ok 0] t ∧ t.busy = false ∧ t.cfg = s.cfg ∧
      t.ie = (b == 1#1) ∧ (s.ie = false → after = [] → t.ovrf = s.ovrf) := by
  obtain ⟨u, t, hu, ht, hrun⟩ := command_emits (i := .ieset b) rfl hb rfl hgap hafter
  have harg : argBit u = (b == 1#1) := by rw [argBit, hu.arg]; exact getLsbD_operand_ieset b
  refine ⟨t, hrun, ht.busy, ht.cfg.trans hu.cfg, ht.ie.trans harg, fun hie hnil => ?_⟩
  have hend : t.ovrf = u.ovrf := ht.ovrf (.inr (hnil ▸ List.not_mem_nil))
  exact hend.trans (hu.ovrf (.inl hie))

/-- Settles O33: `IEGET`, `IESET #0`, the masked reads, and `IESET` of the value found, one run behind the other. -/
theorem maskedReadProtocolRestoresEnable : Obligations.MaskedReadProtocolRestoresEnable := by
  refine ⟨fun s b g0 a0 g1 a1 g2 reads hb htb hie hg0 ha0 hg1 ha1 hg2 hreads => ?_, fun b => rfl⟩
  obtain ⟨v, hv, hvb, hvcfg, -⟩ := ieget_emits hb hg0 ha0
  obtain ⟨u, hu, hub, hucfg, huie, -⟩ := ieset_emits 0 hvb hg1 ha1
  obtain ⟨r, hr, hur⟩ := byteReads_emit hub (by rw [hucfg, hvcfg, htb]) hreads (.inl huie)
  obtain ⟨t, ht, -, -, htie, htovrf⟩ := ieset_emits b hur.busy hg2 interruptsOnly_nil
  rw [hie, flagWord_eq_setWidth] at hv
  exact ⟨u, t, (hv.append hu).runs, huie, (hv.append hu).emits, (hr.append ht).runs, (hr.append ht).emits,
    htie.trans hie.symm, (htovrf (hur.ie.trans huie) rfl).trans hur.ovrf⟩

/-! ### Clock reads (R113 to R115) -/

/-- A clock read with the factor `K` and the mask `S` is in progress, in a build with the timebase. -/
structure ClockReading (K S : Word) (s : State) : Prop where
  busy : s.busy = true
  timebase : s.cfg.tben = true
  command : s.opc = 0x20 ∧ K = s.cfg.kms ∧ S = s.cfg.sms ∨ s.opc = 0x21 ∧ K = s.cfg.kus ∧ S = s.cfg.sus

theorem ClockReading.stepWith_seq_eq {K S : Word} {s : State} (h : ClockReading K S s) :
    stepWith .seq s = maskedScale K S s.pulseOver := by
  obtain ⟨hop, rfl, rfl⟩ | ⟨hop, rfl, rfl⟩ := h.command
  · exact stepWith_seq (i := .rdms) h.busy (by rw [hop]; rfl) h.timebase
  · exact stepWith_seq (i := .rdus) h.busy (by rw [hop]; rfl) h.timebase

/-- Phase `k + 1` copies byte `k` (R113). -/
theorem maskedScale_copy (k : Fin 4) {s : State} (hph : s.ph = BitVec.ofNat 3 (k.val + 1)) (K S : Word) :
    maskedScale K S s = .next (goto (BitVec.ofNat 3 (k.val + 2)) (copyByte k s)) := by
  unfold maskedScale
  rw [hph]
  fin_cases k <;> rfl

/-- The bytes of `v` below `n` are those of the counter. -/
def copied (c : Word) (n : Nat) (v : Word) : Prop := ∀ k : Fin 4, k.val < n → byteOf v k = byteOf c k

theorem copied_zero (c v : Word) : copied c 0 v := fun k hk => absurd hk (Nat.not_lt_zero k)

theorem copied_setByte {c v : Word} (k : Fin 4) (h : copied c k v) : copied c (k + 1) (setByte v k (byteOf c k)) := by
  intro j hj
  rw [byteOf_setByte]
  split
  next hjk => rw [hjk]
  next hjk =>
    have hne : j.val ≠ k.val := fun e => hjk (Fin.ext e)
    exact h j (by omega)

theorem eq_of_copied {c v : Word} (h : copied c 4 v) : v = c := eq_of_bytes fun k => h k k.isLt

/-- A clock read that began in `s` and has copied `n` bytes: `v` is the snapshot so far, `p` tells whether an event is
pending. -/
def midRead (s : State) (n : Nat) (p : Bool) (v : Word) : State :=
  { s.pulseOver with iesave := s.ie, ie := false, ph := BitVec.ofNat 3 (n + 1), snap := v, ovp := p }

theorem ClockReading.of_midRead {K S : Word} {s : State} (h : ClockReading K S s) (n : Nat) (p : Bool) (v : Word) :
    ClockReading K S (midRead s n p v) := ⟨h.busy, h.timebase, h.command⟩

/-- Phase 0 saves and masks. -/
theorem ClockReading.stepWith_seq_first {K S : Word} {s : State} (h : ClockReading K S s) (hph : s.ph = 0) :
    stepWith .seq s = .next (midRead s 0 s.ovp s.snap) := by
  rw [h.stepWith_seq_eq]
  unfold maskedScale
  rw [show s.pulseOver.ph = 0 from hph]
  rfl

/-- Phase `k + 1` copies byte `k` of the counter that phase 0 found. -/
theorem ClockReading.stepWith_seq_copy {K S : Word} {s : State} (h : ClockReading K S s) (k : Fin 4) (p : Bool)
    (v : Word) : stepWith .seq (midRead s k p v) =
      .next (midRead s (k + 1) p (setByte v k (byteOf s.ovrf k))) := by
  rw [(h.of_midRead k p v).stepWith_seq_eq]
  exact maskedScale_copy k rfl K S

/-- Phase 5 responds with the scaled snapshot and restores `IE`. -/
theorem ClockReading.stepWith_seq_last {K S : Word} {s : State} (h : ClockReading K S s) (p : Bool) (v : Word) :
    stepWith .seq (midRead s 4 p v) =
      .next { s with
              resp := some (respWord .ok (scale K S v)), busy := false, ph := 0, iesave := s.ie, snap := v, ovp := p,
              moves := [] } :=
  (h.of_midRead 4 p v).stepWith_seq_eq

/-- An event during a clock read is pending. -/
theorem ClockReading.stepWith_ev_midRead {K S : Word} {s : State} (h : ClockReading K S s) (n : Nat) (p : Bool) (v : Word) :
    stepWith .ev (midRead s n p v) = .next (midRead s n true v) := by
  have hovp : (p || s.cfg.tben) = true := by rw [h.timebase, Bool.or_true]
  rw [← hovp]
  rfl

/-- A clock read past phase 0 is masked: a turn of the interrupt agent passes. -/
theorem stepWith_inc_midRead (s : State) (n : Nat) (p : Bool) (v : Word) :
    stepWith .inc (midRead s n p v) = .next (midRead s n p v) :=
  stepWith_inc_disabled (incEnabled_of_masked rfl)

/-- The inner moves of a clock read copy one byte at each SEQ step and keep any event pending. -/
theorem ClockReading.runMoves_mid {K S : Word} {s : State} (h : ClockReading K S s) {mid : List Move}
    (hmid : undisturbed mid) {n : Nat} (hn : n + mid.count .seq ≤ 4) {p : Bool} {v : Word} (hv : copied s.ovrf n v) :
    ∃ w, runMoves mid (midRead s n p v) =
        .next (midRead s (n + mid.count .seq) (p || decide (Move.ev ∈ mid)) w) ∧
      copied s.ovrf (n + mid.count .seq) w := by
  induction mid generalizing n p v with
  | nil => exact ⟨v, by simp, hv⟩
  | cons m mid ih =>
    have hrest : undisturbed mid := fun k hk => hmid k (List.mem_cons_of_mem m hk)
    obtain rfl | rfl | rfl := hmid m List.mem_cons_self
    · have hcount : (Move.seq :: mid).count .seq = mid.count .seq + 1 := List.count_cons_self
      rw [hcount] at hn ⊢
      obtain ⟨w, hw, hcw⟩ := ih hrest (n := n + 1) (p := p) (by omega) (copied_setByte ⟨n, by omega⟩ hv)
      rw [Nat.add_right_comm, Nat.add_assoc] at hw hcw
      exact ⟨w, runMoves_cons_next.mpr ⟨_, h.stepWith_seq_copy ⟨n, by omega⟩ p v, by simpa using hw⟩, hcw⟩
    · obtain ⟨w, hw, hcw⟩ := ih hrest (n := n) (p := true) (by simpa using hn) hv
      exact ⟨w, runMoves_cons_next.mpr ⟨_, h.stepWith_ev_midRead n p v, by simpa using hw⟩, by simpa using hcw⟩
    · obtain ⟨w, hw, hcw⟩ := ih hrest (n := n) (p := p) (by simpa using hn) hv
      exact ⟨w, runMoves_cons_next.mpr ⟨_, stepWith_inc_midRead s n p v, by simpa using hw⟩, by simpa using hcw⟩

/-- Settles O47: phase 0, the four copies with what falls between them, and phase 5 on a complete snapshot. -/
theorem clockReadReturnsScaledCounter : Obligations.ClockReadReturnsScaledCounter := by
  intro s mid K S hb htb hph hop hmid hcount
  have h : ClockReading K S s := ⟨hb, htb, hop⟩
  obtain ⟨w, hw, hcw⟩ := h.runMoves_mid hmid (n := 0) (p := s.ovp) (by omega) (copied_zero s.ovrf s.snap)
  rw [hcount, Nat.zero_add] at hw hcw
  have hfirst := runMoves_cons_next.mpr ⟨_, h.stepWith_seq_first hph, hw⟩
  have hlast := h.stepWith_seq_last (s.ovp || decide (Move.ev ∈ mid)) w
  rw [eq_of_copied hcw] at hlast hfirst
  exact ⟨⟨_, hfirst, hb⟩, runMoves_append_next.mpr ⟨_, hfirst, runMoves_cons_next.mpr ⟨_, hlast, rfl⟩⟩⟩

end Sys2Proof.Machine
end

section
/-! PROOFS. The encoding (spec 30_encoding.md): the decoder against the encoder, the opcode map and the illegal words, the
assembler's operands, and the response port. -/

namespace Sys2Proof

/-! ### Decoding and encoding (R71, R72) -/

/-- Settles O18: the opcode and the operand of a command name it again, and its reserved bits are zero. -/
theorem decodeOfEncodeIsIdentity : Obligations.DecodeOfEncodeIsIdentity := decode_encode

/-- Settles O19: the opcode of a decoded word and its zero-extended operand are the two fields of the word. -/
theorem encodeOfDecodeIsIdentity : Obligations.EncodeOfDecodeIsIdentity := fun _ _ => encode_of_decode

/-- Settles O22: the decoder evaluates on each word of the table. -/
theorem printedWordsDecode : Obligations.PrintedWordsDecode := by
  unfold Obligations.PrintedWordsDecode
  decide

/-! ### The opcode map (R73) -/

/-- Every command has a row: its opcode, format and presence are in the opcode map. -/
theorem exists_row_of_instr (i : Instr) :
    ∃ r ∈ opcodeTable, i.opc = r.opc ∧ i.format = r.format ∧ i.needsTben = r.needsTben := by
  suffices h : ∃ r, opcodeTable.find? (fun r => r.opc == i.opc) = some r ∧
      i.opc = r.opc ∧ i.format = r.format ∧ i.needsTben = r.needsTben by
    obtain ⟨r, hr, hrow⟩ := h
    exact ⟨r, List.mem_of_find?_eq_some hr, hrow⟩
  cases i <;> exact ⟨_, rfl, rfl, rfl, rfl⟩

/-- Every row has a command: its opcode names one of the row's format, whatever the operand field. -/
theorem exists_instr_of_row {r : Row} (hr : r ∈ opcodeTable) (a : Word) :
    ∃ i, instrOfOpc r.opc a = some i ∧ i.format = r.format := by
  fin_cases hr <;> exact ⟨_, rfl, rfl⟩

/-- What can be said of the format of the command an opcode names can be said of the format of the opcode's row. -/
theorem exists_instrOfOpc_iff_row {o : BitVec 8} {a : Word} (P : Format → Prop) :
    (∃ i, instrOfOpc o a = some i ∧ P i.format) ↔ ∃ r ∈ opcodeTable, o = r.opc ∧ P r.format := by
  constructor
  · rintro ⟨i, hi, hP⟩
    obtain ⟨r, hr, hopc, hformat, -⟩ := exists_row_of_instr i
    exact ⟨r, hr, (opc_of_instrOfOpc hi).symm.trans hopc, hformat ▸ hP⟩
  · rintro ⟨r, hr, rfl, hP⟩
    obtain ⟨i, hi, hformat⟩ := exists_instr_of_row hr a
    exact ⟨i, hi, hformat ▸ hP⟩

/-- An opcode names no command exactly when it is in no row. -/
theorem instrOfOpc_eq_none_iff {o : BitVec 8} {a : Word} :
    instrOfOpc o a = none ↔ ∀ r ∈ opcodeTable, o ≠ r.opc := by
  have h := exists_instrOfOpc_iff_row (o := o) (a := a) fun _ => True
  simp only [and_true, ← Option.isSome_iff_exists] at h
  rw [← Option.not_isSome_iff_eq_none, h]
  simp

/-- A word decodes exactly when it selects a row. -/
theorem decode_ok_iff_row {w : CmdWord} :
    (∃ i, decode w = .ok i) ↔ ∃ r ∈ opcodeTable, w &&& r.mask = r.pattern := by
  simp only [decode_ok, ushiftRight_eq_zero_iff]
  rw [exists_instrOfOpc_iff_row fun f => (immField w).toNat < 2 ^ f.usedBits]
  exact exists_congr fun r => and_congr_right fun hr => (row_selected w r hr).symm

/-- No word selects two rows. -/
theorem row_unique {w : CmdWord} {r q : Row} (hr : r ∈ opcodeTable) (hq : q ∈ opcodeTable)
    (hwr : w &&& r.mask = r.pattern) (hwq : w &&& q.mask = q.pattern) : r = q :=
  row_opc_inj r hr q hq (((row_selected w r hr).mp hwr).1.symm.trans ((row_selected w q hq).mp hwq).1)

/-- The row a word selects is the row of the command it decodes to. -/
theorem row_of_decode {w : CmdWord} {i : Instr} {r : Row} (hd : decode w = .ok i) (hr : r ∈ opcodeTable)
    (hw : w &&& r.mask = r.pattern) : i.opc = r.opc ∧ i.format = r.format ∧ i.needsTben = r.needsTben := by
  obtain ⟨q, hq, hopc, hrow⟩ := exists_row_of_instr i
  have hwi : opcField w = i.opc := (opc_of_instrOfOpc (decode_ok.mp hd).1).symm
  obtain rfl : q = r := row_opc_inj q hq r hr (hopc.symm.trans (hwi.symm.trans ((row_selected w r hr).mp hw).1))
  exact ⟨hopc, hrow⟩

/-- Settles O20: a row is selected by its opcode and zero reserved bits, which is what the decoder asks. -/
theorem decoderAgreesWithOpcodeTable : Obligations.DecoderAgreesWithOpcodeTable := by
  refine ⟨fun w => decode_ok_iff_row, fun w i r hd hr hw => ?_, fun w r q => row_unique⟩
  obtain ⟨hopc, hformat, hneeds⟩ := row_of_decode hd hr hw
  exact ⟨hopc, hformat, hneeds, ((row_selected w r hr).mp hw).1⟩

/-! ### The illegal words (R75) -/

/-- R75 (a): the opcode is in no row. -/
theorem decode_unassigned_iff {w : CmdWord} :
    decode w = .error .unassignedOpcode ↔ ∀ r ∈ opcodeTable, opcField w ≠ r.opc := by
  rw [← instrOfOpc_eq_none_iff (a := immField w), decode]
  cases instrOfOpc (opcField w) (immField w) with
  | none => simp
  | some i =>
    dsimp only
    split_ifs <;> simp

/-- R75 (b): the opcode is in a row, and the operand field does not fit the row's format. -/
theorem decode_reserved_iff {w : CmdWord} :
    decode w = .error .reservedOperandBits ↔
      ∃ r ∈ opcodeTable, opcField w = r.opc ∧ 2 ^ r.format.usedBits ≤ (immField w).toNat := by
  rw [← exists_instrOfOpc_iff_row (a := immField w) fun f => 2 ^ f.usedBits ≤ (immField w).toNat]
  simp only [← not_lt, ← ushiftRight_eq_zero_iff]
  constructor
  · intro h
    unfold decode at h
    split at h
    · cases h
    next i hi =>
      split_ifs at h with hr
      exact ⟨i, hi, hr⟩
  · rintro ⟨i, hi, hr⟩
    exact decode_reserved hi hr

/-- The opcodes in no row are those in the four gaps of the opcode map. -/
theorem unassigned_iff_ranges {o : BitVec 8} : (∀ r ∈ opcodeTable, o ≠ r.opc) ↔
    ((0x04 ≤ o ∧ o ≤ 0x0F) ∨ (0x14 ≤ o ∧ o ≤ 0x1F) ∨ (0x24 ≤ o ∧ o ≤ 0x2F) ∨ 0x32 ≤ o) := by
  simp only [opcodeTable, List.forall_mem_cons, List.not_mem_nil, IsEmpty.forall_iff, implies_true, and_true]
  bv_omega

/-- The rows of an opcode whose format an operand field does not fit, format by format; every field fits `C32`. -/
theorem reserved_iff_formats {o : BitVec 8} {v : Nat} (hv : v < 2 ^ 32) :
    (∃ r ∈ opcodeTable, o = r.opc ∧ 2 ^ r.format.usedBits ≤ v) ↔
      ((o ∈ [0x00, 0x01, 0x02, 0x10, 0x11, 0x12, 0x13, 0x20, 0x21] ∧ 1 ≤ v) ∨ (o = 0x03 ∧ 2 ≤ v) ∨
        (o = 0x30 ∧ 2 ^ 16 ≤ v)) := by
  have hfits : ¬2 ^ 32 ≤ v := not_le.mpr hv
  simp only [opcodeTable, List.mem_cons, List.not_mem_nil, or_and_right, exists_or, exists_eq_left, Format.usedBits,
    pow_zero, pow_one, hfits, and_false, or_false, false_or, or_assoc]
  simp only [or_left_comm]

/-- Settles O21: the opcode ranges are those between the rows, and the reserved bits are those of each row's format. -/
theorem illegalEncodingsAreRejectedByName : Obligations.IllegalEncodingsAreRejectedByName := by
  refine ⟨fun w => decode_unassigned_iff.trans unassigned_iff_ranges, fun w => ?_⟩
  have hne : immField w ≠ 0 ↔ 1 ≤ (immField w).toNat := by bv_omega
  rw [decode_reserved_iff, reserved_iff_formats (immField w).isLt, hne]

end Sys2Proof

namespace Sys2Proof.Machine

/-! ### The assembler's operands (R80) -/

/-- A value the assembler takes fits the format of the command, and is the operand of the command. -/
theorem operandCommand_some {m : List Char} {v : Nat} {i : Instr} (h : operandCommand m v = some i) :
    v < 2 ^ i.format.usedBits ∧ i.operand.toNat = v := by
  unfold operandCommand at h
  split_ifs at h with _ hv _ hv _ hv _ hv _ hv <;> cases h <;> refine ⟨hv, ?_⟩
  all_goals simp only [Instr.operand, BitVec.toNat_setWidth, BitVec.toNat_ofNat]; omega

/-- Settles O60: each operand mnemonic asks that the value fits, and the command it makes holds the value. -/
theorem assemblerNeverTruncates : Obligations.AssemblerNeverTruncates := by
  refine ⟨fun m v i h => ?_, fun v => ?_⟩
  · obtain ⟨hfits, hvalue⟩ := operandCommand_some h
    exact ⟨hvalue, hfits, by rw [immField_encode, hvalue]⟩
  · simp [operandCommand]

/-! ### The response port (R70, R78) -/

/-- A response word as a number. -/
theorem respWord_toNat (st : Status) (v : Word) : (respWord st v).toNat = st.code.toNat * 2 ^ 32 + v.toNat := by
  have h : (respWord st v).toNat = st.code.toNat <<< 32 ||| v.toNat := BitVec.toNat_append st.code v
  rw [h, ← Nat.shiftLeft_add_eq_or_of_lt v.isLt, Nat.shiftLeft_eq]

/-- Settles O17: the two fields of a response word, and the codes as `Status.code` gives them. -/
theorem responseWordLayout : Obligations.ResponseWordLayout :=
  ⟨fun st v => ⟨respWord_toNat st v, respStatus_respWord st v, respValue_respWord st v⟩, rfl, rfl, rfl⟩

/-- A phase completes its command, or leaves it in progress and the response port as it was. -/
theorem phaseOf_done_or_silent {i : Instr} {s t : State} (h : phaseOf i s = .next t) :
    (∃ v u, t = done v u) ∨ (t.busy = s.busy ∧ t.resp = s.resp) := by
  obtain ⟨-, -, v, rfl⟩ | ⟨-, -, rfl⟩ | ⟨-, h⟩ | ⟨-, h⟩ | ⟨-, h⟩ | ⟨-, h⟩ := phaseOf_next h
  · exact .inl ⟨_, _, rfl⟩
  · exact .inl ⟨_, _, rfl⟩
  · obtain ⟨-, rfl⟩ | ⟨k, -, rfl⟩ | ⟨-, rfl⟩ := maskedScale_next h
    exacts [.inr ⟨rfl, rfl⟩, .inr ⟨rfl, rfl⟩, .inl ⟨_, _, rfl⟩]
  · obtain ⟨-, rfl⟩ | ⟨k, -, rfl⟩ | ⟨-, rfl⟩ := maskedScale_next h
    exacts [.inr ⟨rfl, rfl⟩, .inr ⟨rfl, rfl⟩, .inl ⟨_, _, rfl⟩]
  · obtain ⟨-, -, rfl⟩ | ⟨-, -, rfl⟩ | ⟨-, -, rfl⟩ | ⟨-, -, rfl⟩ := delayMicros_next h
    exacts [.inl ⟨_, _, rfl⟩, .inr ⟨rfl, rfl⟩, .inl ⟨_, _, rfl⟩, .inr ⟨rfl, rfl⟩]
  · obtain ⟨-, rfl⟩ | ⟨-, -, rfl⟩ | ⟨-, -, -, rfl⟩ | ⟨-, -, -, rfl⟩ | ⟨-, -, rfl⟩ | ⟨-, -, rfl⟩ := delayMillis_next h
    · exact .inr ⟨rfl, rfl⟩
    · exact .inl ⟨_, _, rfl⟩
    all_goals exact .inr ⟨rfl, rfl⟩

/-- Settles O16: every turn starts with no response on the port, and only `done` and `raise` put one there. -/
theorem responsesEndCommands : Obligations.ResponsesEndCommands := by
  intro s t h
  cases step_turn h with
  | event hm | interrupt hm | interruptOff hm | accepted hm | reset hm => simp [hm]
  | portBusy hm hb | sequencerIdle hm hb => simp [hm, hb]
  | illegal hm hb | absent hm hb => simp [hm, hb, Status.code]
  | phase hm hb _ _ he =>
    obtain ⟨v, u, rfl⟩ | ⟨hbusy, hresp⟩ := phaseOf_done_or_silent he
    · simp [hm, hb, Status.code]
    · simp [hm, hb, hbusy, hresp]

/-! ### Turns without a step (log entry 7) -/

theorem stepIssue_of_busy {s : State} (hb : s.busy = true) (w : CmdWord) : stepIssue w s = .next s := by
  simp [stepIssue, hb]

theorem stepSeq_of_idle {s : State} (hb : s.busy = false) : stepSeq s = .next s := by
  simp [stepSeq, hb]

theorem stepInc_of_disabled {s : State} (h : ¬(s.cfg.tben = true ∧ s.ie = true ∧ s.ovp = true)) :
    stepInc s = .next s := by
  have hinc : incEnabled s ≠ true := by simpa [incEnabled] using h
  rw [stepInc, if_neg hinc]

/-- Settles O13: a busy port, an idle sequencer and a disabled interrupt agent each pass the state on. -/
theorem turnsWithoutStepChangeNothing : Obligations.TurnsWithoutStepChangeNothing := by
  refine ⟨fun s w hm hb => ?_, fun s hm hb => ?_, fun s hm hno => ?_⟩
  · exact (step_of_nextMove hm).trans (stepIssue_of_busy (by simpa using hb) w)
  · exact (step_of_nextMove hm).trans (stepSeq_of_idle (by simpa using hb))
  · exact (step_of_nextMove hm).trans (stepInc_of_disabled (by simpa using hno))

end Sys2Proof.Machine
end

section
/-! PROOFS. The overflow accumulator (spec 40_accumulator.md): what EV and INC do, how many events a run counts, and that spaced
events are all counted. -/

namespace Sys2Proof.Machine

/-! ### EV and INC (R90 to R94) -/

/-- With the timebase an event is pending, whatever was pending before. -/
theorem setPending_of_timebase {s : State} (htb : s.cfg.tben = true) : setPending s = { s with ovp := true } := by
  rw [setPending, htb, Bool.or_true]

/-- Without the timebase an event does nothing. -/
theorem setPending_of_noTimebase {s : State} (htb : s.cfg.tben = false) : setPending s = s := by
  rw [setPending, htb, Bool.or_false]

/-- There is one pending bit: an event that finds it set is lost (R93). -/
theorem setPending_of_pending {s : State} (hop : s.ovp = true) : setPending s = s := by
  have hlost : (s.ovp || s.cfg.tben) = s.ovp := by rw [hop, Bool.true_or]
  rw [setPending, hlost]

theorem incEnabled_iff {s : State} : incEnabled s = true ↔ s.cfg.tben = true ∧ s.ie = true ∧ s.ovp = true := by
  rw [incEnabled, Bool.and_eq_true, Bool.and_eq_true, and_assoc]

theorem stepInc_of_enabled {s : State} (h : incEnabled s = true) : stepInc s = .next (takeInterrupt s) := by
  rw [stepInc, if_pos h]

/-- Settles O10: an event sets the pending bit, unless there is no timebase or the bit is set already. -/
theorem eventSetsPendingWhenTimebaseEnabled : Obligations.EventSetsPendingWhenTimebaseEnabled := by
  intro s hm
  have hstep : step s = .next (setPending s.afterTurn) := step_of_nextMove hm
  refine ⟨fun htb => ?_, fun htb => ?_, fun hop => ?_, afterTurn_resp s⟩
  · rw [hstep, setPending_of_timebase (by simpa using htb)]
  · rw [hstep, setPending_of_noTimebase (by simpa using htb)]
  · rw [hstep, setPending_of_pending (by simpa using hop)]

/-- Settles O11: an enabled turn of the interrupt agent takes the interrupt, and any other passes the state on. -/
theorem incrementServicesPendingEvent : Obligations.IncrementServicesPendingEvent := by
  intro s hm
  refine ⟨fun htb hie hop => ⟨s.ovrf + 1, ?_, BitVec.toNat_add _ _, fun hmax => ?_⟩, fun hno t ht => ?_, afterTurn_resp s⟩
  · have hinc : incEnabled s.afterTurn = true := incEnabled_iff.mpr (by simpa using ⟨htb, hie, hop⟩)
    rw [step_of_nextMove hm, ← afterTurn_ovrf s]
    exact stepInc_of_enabled hinc
  · rw [hmax]
    rfl
  · cases ((step_of_nextMove hm).trans (stepInc_of_disabled (by simpa using hno))).symm.trans ht
    exact ⟨afterTurn_ovrf s, afterTurn_ovp s⟩

/-! ### What a move does to the counter and the pending event (R100) -/

/-- A move of a run that is no RESET is an event, an INC step, or neither; only an INC step moves the counter and clears the
pending bit, and only an event sets it. -/
theorem stepWith_counter_cases {m : Move} {s u : State} (h : stepWith m s = .next u) (hreset : m ≠ .reset) :
    (m = .ev ∧ u.ovrf = s.ovrf ∧ u.ovp = (s.ovp || s.cfg.tben)) ∨
    (m = .inc ∧ incEnabled s = true ∧ u.ovrf = s.ovrf + 1 ∧ u.ovp = false) ∨
    (m ≠ .ev ∧ ¬(m = .inc ∧ incEnabled s = true) ∧ u.ovrf = s.ovrf ∧ u.ovp = s.ovp) := by
  cases step_turn h with
  | event hm =>
    obtain rfl : m = .ev := hm
    exact .inl ⟨rfl, rfl, rfl⟩
  | interrupt hm hinc =>
    obtain rfl : m = .inc := hm
    exact .inr (.inl ⟨rfl, hinc, rfl, rfl⟩)
  | interruptOff hm hinc =>
    obtain rfl : m = .inc := hm
    have hoff : incEnabled s = false := hinc
    exact .inr (.inr ⟨nofun, fun hon => by simp [hoff] at hon, rfl, rfl⟩)
  | portBusy hm | illegal hm | absent hm | accepted hm =>
    obtain rfl : m = .issue _ := hm
    exact .inr (.inr ⟨nofun, nofun, rfl, rfl⟩)
  | sequencerIdle hm =>
    obtain rfl : m = .seq := hm
    exact .inr (.inr ⟨nofun, nofun, rfl, rfl⟩)
  | phase hm _ _ _ he =>
    obtain rfl : m = .seq := hm
    obtain ⟨-, hovrf, hovp, -⟩ := phaseOf_keeps he
    exact .inr (.inr ⟨nofun, nofun, hovrf, hovp⟩)
  | reset hm => exact absurd hm hreset

theorem stepWith_cfg {m : Move} {s u : State} (h : stepWith m s = .next u) : u.cfg = s.cfg := (step_keeps h).1

/-- An INC step counts. -/
theorem incSteps_cons_inc {ms : List Move} {s u : State} (h : stepWith .inc s = .next u) (hinc : incEnabled s = true) :
    incSteps (.inc :: ms) s = incSteps ms u + 1 := by
  rw [incSteps_cons h, if_pos ⟨rfl, hinc⟩, Nat.add_comm]

/-- No other move counts. -/
theorem incSteps_cons_other {m : Move} {ms : List Move} {s u : State} (h : stepWith m s = .next u)
    (hno : ¬(m = .inc ∧ incEnabled s = true)) : incSteps (m :: ms) s = incSteps ms u := by
  rw [incSteps_cons h, if_neg hno, Nat.zero_add]

/-! ### The INC steps of a run (R100) -/

/-- One count more, modulo 2^32. -/
theorem add_one_add_ofNat (v : Word) (n : Nat) : v + 1 + BitVec.ofNat 32 n = v + BitVec.ofNat 32 (n + 1) := by
  have hsucc : BitVec.ofNat 32 (n + 1) = BitVec.ofNat 32 n + 1 := BitVec.ofNat_add n 1
  rw [hsucc, BitVec.add_assoc, BitVec.add_comm 1]

/-- R100 L-2: the counter advances by the INC steps. -/
theorem runMoves_ovrf {ms : List Move} {s t : State} (hreset : Move.reset ∉ ms) (h : runMoves ms s = .next t) :
    t.ovrf = s.ovrf + BitVec.ofNat 32 (incSteps ms s) := by
  induction ms generalizing s with
  | nil =>
    cases h
    exact (BitVec.add_zero _).symm
  | cons m ms ih =>
    obtain ⟨u, hu, ht⟩ := runMoves_cons_next.mp h
    obtain ⟨hm, hms⟩ := not_or.mp (List.mem_cons.not.mp hreset)
    have hrest := ih hms ht
    obtain ⟨rfl, hovrf, -⟩ | ⟨rfl, hinc, hovrf, -⟩ | ⟨-, hno, hovrf, -⟩ := stepWith_counter_cases hu (Ne.symm hm)
    · rw [hrest, hovrf, incSteps_cons_other hu nofun]
    · rw [hrest, hovrf, incSteps_cons_inc hu hinc, add_one_add_ofNat]
    · rw [hrest, hovrf, incSteps_cons_other hu hno]

/-- R100 L-4: an INC step uses up the pending event, and an event makes at most one pending. -/
theorem incSteps_le_events {ms : List Move} {s t : State} (hreset : Move.reset ∉ ms) (h : runMoves ms s = .next t) :
    incSteps ms s + t.ovp.toNat ≤ ms.count .ev + s.ovp.toNat := by
  induction ms generalizing s with
  | nil =>
    cases h
    exact le_rfl
  | cons m ms ih =>
    obtain ⟨u, hu, ht⟩ := runMoves_cons_next.mp h
    obtain ⟨hm, hms⟩ := not_or.mp (List.mem_cons.not.mp hreset)
    have hrest := ih hms ht
    obtain ⟨rfl, -, -⟩ | ⟨rfl, hinc, -, hovp⟩ | ⟨hev, hno, -, hovp⟩ := stepWith_counter_cases hu (Ne.symm hm)
    · have hone : u.ovp.toNat ≤ 1 := Bool.toNat_le u.ovp
      rw [incSteps_cons_other hu nofun, List.count_cons_self]
      omega
    · have hpending : s.ovp = true := (incEnabled_iff.mp hinc).2.2
      rw [hovp, Bool.toNat_false] at hrest
      rw [incSteps_cons_inc hu hinc, List.count_cons_of_ne (by decide), hpending, Bool.toNat_true]
      omega
    · rw [incSteps_cons_other hu hno, List.count_cons_of_ne hev, ← hovp]
      exact hrest

/-- Settles O35: both laws, each by induction on the schedule. -/
theorem counterCountsServicedEvents : Obligations.CounterCountsServicedEvents :=
  fun _ _ _ hreset h => ⟨runMoves_ovrf hreset h, incSteps_le_events hreset h⟩

/-! ### Spaced events (R93) -/

/-- An INC step lies before the first event of the run: what EventSpacing asks of the rest of a run while an event is
pending. -/
def servicedFirst (ms : List Move) (s : State) : Prop :=
  ∀ between after, ms = between ++ .ev :: after → Move.ev ∉ between → 0 < incSteps between s

theorem not_servicedFirst_ev (ms : List Move) (s : State) : ¬servicedFirst (.ev :: ms) s :=
  fun h => Nat.lt_irrefl 0 (h [] ms rfl List.not_mem_nil)

/-- A move that is neither an event nor an INC step leaves the INC step still to come. -/
theorem servicedFirst.tail {m : Move} {ms : List Move} {s u : State} (h : servicedFirst (m :: ms) s)
    (hu : stepWith m s = .next u) (hev : m ≠ .ev) (hno : ¬(m = .inc ∧ incEnabled s = true)) : servicedFirst ms u := by
  intro between after hms hbetween
  have hpos := h (m :: between) after (by rw [hms]; rfl) (List.not_mem_cons_of_ne_of_not_mem (Ne.symm hev) hbetween)
  rwa [incSteps_cons_other hu hno] at hpos

theorem eventSpacing.tail {m : Move} {ms : List Move} {s u : State} (h : eventSpacing (m :: ms) s)
    (hu : stepWith m s = .next u) : eventSpacing ms u := by
  intro before between after hms hbetween v hv
  exact h (m :: before) between after (by rw [hms]; rfl) hbetween v (runMoves_cons_next.mpr ⟨u, hu, hv⟩)

/-- After an event of a spaced run an INC step comes before the next. -/
theorem eventSpacing.servicedFirst {ms : List Move} {s u : State} (h : eventSpacing (.ev :: ms) s)
    (hu : stepWith .ev s = .next u) : servicedFirst ms u :=
  fun between after hms hbetween =>
    h [] between after (by rw [hms]; rfl) hbetween u (runMoves_cons_next.mpr ⟨u, hu, rfl⟩)

/-- No event of a spaced run is lost: it is serviced or still pending at the end. -/
theorem incSteps_eq_events {ms : List Move} {s t : State} (htb : s.cfg.tben = true)
    (hfirst : s.ovp = true → servicedFirst ms s) (hreset : Move.reset ∉ ms) (hspaced : eventSpacing ms s)
    (h : runMoves ms s = .next t) : incSteps ms s + t.ovp.toNat = ms.count .ev + s.ovp.toNat := by
  induction ms generalizing s with
  | nil =>
    cases h
    rfl
  | cons m ms ih =>
    obtain ⟨u, hu, ht⟩ := runMoves_cons_next.mp h
    obtain ⟨hm, hms⟩ := not_or.mp (List.mem_cons.not.mp hreset)
    have hrest (hnext : u.ovp = true → servicedFirst ms u) := ih (by rwa [stepWith_cfg hu]) hnext hms (hspaced.tail hu) ht
    obtain ⟨rfl, -, hovp⟩ | ⟨rfl, hinc, -, hovp⟩ | ⟨hev, hno, -, hovp⟩ := stepWith_counter_cases hu (Ne.symm hm)
    · have hfree : s.ovp = false := Bool.eq_false_iff.mpr fun hop => not_servicedFirst_ev ms s (hfirst hop)
      rw [incSteps_cons_other hu nofun, hrest fun _ => hspaced.servicedFirst hu, List.count_cons_self, hovp, htb, hfree]
      rfl
    · have hpending : s.ovp = true := (incEnabled_iff.mp hinc).2.2
      rw [incSteps_cons_inc hu hinc, Nat.add_right_comm, hrest fun hop => absurd (hovp.symm.trans hop) (by decide),
        List.count_cons_of_ne (by decide), hovp, hpending]
      rfl
    · rw [incSteps_cons_other hu hno, hrest fun hop => (hfirst (hovp ▸ hop)).tail hu hev hno,
        List.count_cons_of_ne hev, hovp]

/-- Servicing an event that found nothing pending leaves nothing pending. -/
theorem takeInterrupt_setPending {s : State} (hop : s.ovp = false) :
    takeInterrupt (setPending s) = { s with ovrf := s.ovrf + 1 } := by
  rw [takeInterrupt, ← hop]
  rfl

/-- With interrupts on and nothing pending, an event serviced at once adds one to the counter and leaves nothing pending. -/
theorem runMoves_servicedEvent {s : State} (htb : s.cfg.tben = true) (hie : s.ie = true) (hop : s.ovp = false)
    (ms : List Move) :
    runMoves (.ev :: .inc :: ms) s = runMoves ms { s with ovrf := s.ovrf + 1, resp := none, moves := [] } := by
  have hinc : incEnabled (setPending s.pulseOver) = true := incEnabled_iff.mpr (by simp [htb, hie])
  rw [runMoves_cons, stepWith_ev, andThen_next, runMoves_cons, stepWith_inc_enabled hinc, andThen_next]
  exact congrArg (runMoves ms) (takeInterrupt_setPending (s := s.pulseOver) hop)

/-- `n` events each serviced at once. -/
theorem runMoves_servicedEvents (n : Nat) {s : State} (htb : s.cfg.tben = true) (hie : s.ie = true) (hop : s.ovp = false) :
    runMoves ((List.replicate n [Move.ev, Move.inc]).flatten) s =
      .next { s with
              ovrf := s.ovrf + BitVec.ofNat 32 n, resp := if n = 0 then s.resp else none,
              moves := if n = 0 then s.moves else [] } := by
  induction n generalizing s with
  | zero => simp
  | succ n ih =>
    have hrest := ih (s := { s with ovrf := s.ovrf + 1, resp := none, moves := [] }) htb hie hop
    rw [List.replicate_succ, List.flatten_cons, List.cons_append, List.cons_append, List.nil_append,
      runMoves_servicedEvent htb hie hop, hrest]
    simp only [add_one_add_ofNat, ite_self, Nat.add_one_ne_zero, if_false]

/-- Settles O36: no event of a spaced run is lost, and the counter advances by the INC steps. -/
theorem spacedEventsAreAllCounted : Obligations.SpacedEventsAreAllCounted := by
  refine ⟨fun ms s t htb hop hreset hspaced h => ?_, fun n s htb hie hop => runMoves_servicedEvents n htb hie hop⟩
  have hcount : incSteps ms s + t.ovp.toNat = ms.count .ev := by
    simpa [hop] using incSteps_eq_events htb (fun hpending => by simp [hop] at hpending) hreset hspaced h
  refine ⟨hcount, ?_⟩
  rw [runMoves_ovrf hreset h, ← hcount, Nat.add_sub_cancel]

end Sys2Proof.Machine
end

section
/-! PROOFS. The timebase scaler (spec 41_scaler.md): the scaler and what its shifts lose, the correction scaler, and the four
commands that use them. -/

namespace Sys2Proof.Machine

/-! ### The scaler as product plus shifts (R111, R120, R121) -/

/-- The sum of the selected shifts, as a sum over all 32 mask bits (R111). -/
theorem shiftSum_eq_sum_range (S : Word) (x : Nat) :
    shiftSum S x =
      ((List.range 32).map (fun a => if 1 ≤ a ∧ S.getLsbD a = true then x / 2 ^ a else 0)).sum := by
  have hnd : (shiftAmounts S).Nodup := List.Nodup.filter _ List.nodup_range'
  have hset : (shiftAmounts S).toFinset = {a ∈ Finset.range 32 | 1 ≤ a ∧ S.getLsbD a = true} := by
    ext a
    rw [List.mem_toFinset, mem_shiftAmounts, Finset.mem_filter, Finset.mem_range]
    tauto
  rw [shiftSum, ← List.sum_toFinset _ hnd, hset, Finset.sum_filter, ← List.toFinset_range,
    List.sum_toFinset _ List.nodup_range]
  rfl

/-- The one reduction of the total commutes with the product and the sum of the shifts. -/
theorem scale_eq_add (K S x : Word) : scale K S x = K * x + BitVec.ofNat 32 (shiftSum S x.toNat) := by
  apply BitVec.eq_of_toNat_eq
  rw [scale_toNat, scaleTotal, BitVec.toNat_add, BitVec.toNat_mul, BitVec.toNat_ofNat, ← Nat.add_mod]

@[simp] theorem scaleTotal_zero_mask (K x : Word) : scaleTotal K 0 x = K.toNat * x.toNat := by
  rw [scaleTotal, shiftSum_zero_mask, Nat.add_zero]

theorem scale_zero_mask (K x : Word) : scale K 0 x = K * x := by
  rw [scale_eq_add, shiftSum_zero_mask]
  exact BitVec.add_zero _

/-- Settles O37: the shifts are summed over the mask bits, and reduction modulo 2^32 is a ring map. -/
theorem scalerIsProductPlusShifts : Obligations.ScalerIsProductPlusShifts := by
  refine fun K S x => ⟨?_, scale_eq_add K S x, fun hS => hS ▸ scale_zero_mask K x⟩
  rw [scale_toNat, scaleTotal, shiftSum_eq_sum_range]

/-- Settles O40: with an empty mask the total is the product alone. -/
theorem exactRatioHasNoError : Obligations.ExactRatioHasNoError := by
  refine fun c x => ⟨fun hS hK => ?_, fun hS hK => ?_⟩ <;>
    · rw [hS, scale_toNat, scaleTotal_zero_mask, ← hK]
      exact ⟨Nat.cast_mul _ _, rfl⟩

/-! ### What the shifts lose (R112) -/

/-- What one shift loses by rounding down: the fraction of `x / 2^a`. -/
def shiftLoss (x a : Nat) : ℚ := Int.fract ((x : ℚ) / 2 ^ a)

theorem shiftLoss_nonneg (x a : Nat) : 0 ≤ shiftLoss x a := Int.fract_nonneg _

theorem shiftLoss_lt_one (x a : Nat) : shiftLoss x a < 1 := Int.fract_lt_one _

theorem shr_add_shiftLoss (x a : Nat) : (shr x a : ℚ) + shiftLoss x a = x / 2 ^ a := by
  have hfloor : ⌊(x : ℚ) / 2 ^ a⌋ = (shr x a : ℤ) := by
    simpa [shr] using Rat.floor_natCast_div_natCast x (2 ^ a)
  rw [shiftLoss, ← Int.self_sub_floor, hfloor, Int.cast_natCast, add_sub_cancel]

/-- What the scaler loses on `x`: the loss of each selected shift. -/
def scaleLoss (S x : Word) : ℚ := ((shiftAmounts S).map (shiftLoss x.toNat)).sum

/-- The total and the loss are the exact ratio times `x`: all of the value laws V-1 to V-3 come down to bounds of the
loss. -/
theorem scaleTotal_add_scaleLoss (K S x : Word) : (scaleTotal K S x : ℚ) + scaleLoss S x = approx K S * x.toNat := by
  have hterms : ((shiftSum S x.toNat : Nat) : ℚ) + scaleLoss S x =
      ((shiftAmounts S).map (fun a => (1 : ℚ) / 2 ^ a)).sum * x.toNat := by
    rw [shiftSum, scaleLoss, Nat.cast_list_sum, List.map_map, ← List.sum_map_add, ← List.sum_map_mul_right]
    refine congrArg List.sum (List.map_congr_left fun a _ => ?_)
    rw [Function.comp_apply, shr_add_shiftLoss, one_div_mul_eq_div]
  rw [scaleTotal, Nat.cast_add, add_assoc, hterms, approx, add_mul, Nat.cast_mul]

theorem scaleLoss_nonneg (S x : Word) : 0 ≤ scaleLoss S x :=
  List.sum_nonneg (List.forall_mem_map.mpr fun a _ => shiftLoss_nonneg _ a)

/-- With no selected shift nothing is lost. -/
theorem scaleLoss_of_no_shifts {S : Word} (h : (shiftAmounts S).length = 0) (x : Word) : scaleLoss S x = 0 := by
  rw [scaleLoss, List.length_eq_zero_iff.mp h, List.map_nil, List.sum_nil]

/-- Each of the selected shifts loses less than 1. -/
theorem scaleLoss_lt {S : Word} (h : 0 < (shiftAmounts S).length) (x : Word) :
    scaleLoss S x < (shiftAmounts S).length := by
  have hlt := List.sum_lt_sum_of_ne_nil (List.ne_nil_of_length_pos h) (shiftLoss x.toNat) (fun _ => 1)
    (fun a _ => shiftLoss_lt_one _ a)
  simpa [scaleLoss] using hlt

theorem scaleLoss_le (S x : Word) : scaleLoss S x ≤ (shiftAmounts S).length := by
  obtain h | h := Nat.eq_zero_or_pos (shiftAmounts S).length
  · rw [scaleLoss_of_no_shifts h]
    exact Nat.cast_nonneg _
  · exact (scaleLoss_lt h x).le

/-- V-1: the total never exceeds the exact ratio times `x`. -/
theorem scaleTotal_le (K S x : Word) : (scaleTotal K S x : ℚ) ≤ approx K S * x.toNat :=
  (le_add_of_nonneg_right (scaleLoss_nonneg S x)).trans_eq (scaleTotal_add_scaleLoss K S x)

/-- V-1 against a ratio that the exact one does not exceed (W5). -/
theorem scaleTotal_le_of_approx_le {K S : Word} {r : ℚ} (h : approx K S ≤ r) (x : Word) :
    (scaleTotal K S x : ℚ) ≤ r * x.toNat :=
  (scaleTotal_le K S x).trans (by gcongr)

/-- V-4: a larger `x` never has a smaller total. -/
theorem scaleTotal_mono (K S : Word) {x y : Word} (h : x ≤ y) : scaleTotal K S x ≤ scaleTotal K S y :=
  Nat.add_le_add (Nat.mul_le_mul_left _ h) (shiftSum_mono S h)

/-- V-6: the one reduction is idle exactly when the total fits 32 bits. -/
theorem scale_toNat_eq_iff (K S x : Word) : (scale K S x).toNat = scaleTotal K S x ↔ scaleTotal K S x < 2 ^ 32 := by
  rw [scale_toNat, Nat.mod_eq_iff_lt (by decide)]

/-- With bit 0 clear the selected amounts are the set bits of the mask. -/
theorem shiftAmounts_eq_setBits {S : Word} (h : S.getLsbD 0 = false) :
    shiftAmounts S = (List.range 32).filter (fun a => S.getLsbD a) := by
  have hrange : List.range 32 = 0 :: List.range' 1 31 := rfl
  rw [hrange, List.filter_cons_of_neg (by rw [h]; decide), shiftAmounts]

/-- Settles O38: V-1 to V-3 are the bounds of the loss, from below 0 and from above the number of selected shifts. -/
theorem scalerValueLaws : Obligations.ScalerValueLaws := by
  refine ⟨scaleTotal_le, fun c x hwf htb => ?_, fun K S x => ?_, fun K S x r => ?_, fun K S x y => scaleTotal_mono K S,
    fun K S => by simp [scaleTotal], scale_toNat_eq_iff, fun S hS => by rw [shiftAmounts_eq_setBits hS]⟩
  · obtain ⟨hms, hus⟩ := hwf.w5 htb
    exact ⟨scaleTotal_le_of_approx_le hms x, scaleTotal_le_of_approx_le hus x⟩
  · have hsum := scaleTotal_add_scaleLoss K S x
    have hle := scaleLoss_le S x
    refine ⟨by linarith, fun hpos => ?_, fun hno => ?_⟩
    · have hlt := scaleLoss_lt hpos x
      linarith
    · have hzero := scaleLoss_of_no_shifts hno x
      linarith
  · have hsum := scaleTotal_add_scaleLoss K S x
    have hle := scaleLoss_le S x
    refine ⟨by linarith, fun hpos => ?_⟩
    have hlt := scaleLoss_lt hpos x
    linarith

/-- Settles O39: the total is monotone, and neither total is reduced. -/
theorem readingsAreMonotone : Obligations.ReadingsAreMonotone := by
  intro K S v1 v2 hle hlt
  have hmono := scaleTotal_mono K S hle
  rw [BitVec.le_def, (scale_toNat_eq_iff K S v1).mpr (by omega), (scale_toNat_eq_iff K S v2).mpr hlt]
  exact hmono

/-! ### A thousand overflows at 8 MHz (R13, R122) -/

/-- The loosest tolerance asks for no correction term: `Gen` then returns the integer part of the ratio alone. -/
theorem gen_loosest {r : ℚ} (hr : 1 ≤ r) (hK : genK r < 2 ^ 32) :
    gen r 1000000 = some (BitVec.ofNat 32 (genK r), 0) := by
  have hpos : 1 ≤ genK r := by
    rw [genK_eq_floor]
    exact Nat.le_floor (by simpa using hr)
  have happrox : approx (BitVec.ofNat 32 (genK r)) 0 = genK r := by
    rw [approx_zero_mask, BitVec.toNat_ofNat, Nat.mod_eq_of_lt hK]
  have hposQ : (1 : ℚ) ≤ genK r := by exact_mod_cast hpos
  have hstop : genStop r 1000000 (BitVec.ofNat 32 (genK r)) 0 := by
    rw [genStop, happrox]
    push_cast
    exact ⟨by linarith, by linarith⟩
  rw [gen, if_neg (by omega), genLoop_of_stop hstop, Option.map_some]

theorem ratioMs_8MHz : ratioMs 8000000 64 = 256 / 125 := by norm_num [ratioMs]

theorem genK_8MHz : genK (ratioMs 8000000 64) = 2 := by
  rw [genK_eq_floor, ratioMs_8MHz, Nat.floor_eq_iff (by norm_num)]
  norm_num

/-- Settles O41: the bias law V-1 at 1000 overflows; the canonical constants are the integer part of the ratio. -/
theorem thousandOverflowsNeverReadFast : Obligations.ThousandOverflowsNeverReadFast := by
  refine ⟨fun c hwf htb hf hp => ?_, ?_, ?_⟩
  · have hratio : c.rMs = 256 / 125 := by rw [Cfg.rMs, hf, hp, ratioMs_8MHz]
    have htotal : (scaleTotal c.kms c.sms 1000 : ℚ) ≤ (2048 : Nat) := by
      calc (scaleTotal c.kms c.sms 1000 : ℚ) ≤ c.rMs * (1000 : Nat) := scaleTotal_le_of_approx_le (hwf.w5 htb).1 1000
        _ = (2048 : Nat) := by rw [hratio]; norm_num
    rw [scale_toNat]
    exact (Nat.mod_le _ _).trans (Nat.cast_le.mp htotal)
  · rw [gen_loosest (by rw [ratioMs_8MHz]; norm_num) (by rw [genK_8MHz]; decide), genK_8MHz]
    rfl
  · rw [scale_toNat, scaleTotal_zero_mask]
    rfl

/-! ### The correction scaler (R116, R123) -/

/-- A numerator of at most 1_000_000 gives a quotient of at most `n`. -/
theorem correction_le {N n : Nat} (h : N ≤ 1000000) : n * N / 1000000 ≤ n :=
  Nat.div_le_of_le_mul (by rw [Nat.mul_comm]; exact Nat.mul_le_mul_right n h)

/-- For a numerator of at most 1_000_000 nothing is lost in the 32 bits of the result. -/
theorem realTicks_toNat {N : BitVec 20} (h : N.toNat ≤ 1000000) (n : Word) :
    (realTicks N n).toNat = n.toNat * N.toNat / 1000000 := by
  rw [realTicks, BitVec.toNat_ofNat, Nat.mod_eq_of_lt ((correction_le h).trans_lt n.isLt)]

/-- R116 as a floor on exact rationals. -/
theorem realTicks_eq_floor {N : BitVec 20} (h : N.toNat ≤ 1000000) (n : Word) :
    (realTicks N n).toNat = ⌊(n.toNat * N.toNat : ℚ) / 1000000⌋₊ := by
  rw [realTicks_toNat h, ← Nat.floor_div_eq_div (K := ℚ), Nat.cast_mul, Nat.cast_ofNat]

/-- Settles O42: the product is exact and the quotient at most `n`. -/
theorem correctionIsFloorOfExactProduct : Obligations.CorrectionIsFloorOfExactProduct := by
  intro N n hN
  have hprod : n.toNat * N.toNat < 2 ^ 32 * 2 ^ 20 := Nat.mul_lt_mul'' n.isLt N.isLt
  refine ⟨realTicks_toNat hN n, hprod, ?_, by simp [realTicks], ?_, by simp [realTicks]⟩
  · rw [BitVec.le_def, realTicks_toNat hN]
    exact correction_le hN
  · apply BitVec.eq_of_toNat_eq
    rw [realTicks_toNat le_rfl]
    exact Nat.mul_div_cancel _ (by decide)

/-- A numerator that is the rounded-down factor `a / r` of at most 1 (W7) is at most 1_000_000. -/
theorem numerator_le {N : BitVec 20} {r a : ℚ} (hr : 0 < r) (ha : a ≤ r)
    (hN : (N.toNat : ℤ) = ⌊1000000 * a / r⌋) : N.toNat ≤ 1000000 := by
  have hfactor : 1000000 * a / r ≤ 1000000 := by
    rw [div_le_iff₀ hr]
    linarith
  have hfloor : ((N.toNat : ℤ) : ℚ) ≤ 1000000 := hN ▸ (Int.floor_le _).trans hfactor
  exact_mod_cast hfloor

/-- Both roundings of the correction are down: the numerator's costs less than `n / 1_000_000`, the quotient's less than
1 (R123). -/
theorem realTicks_bounds {N : BitVec 20} {r a : ℚ} (hr : 0 < r) (ha : a ≤ r)
    (hN : (N.toNat : ℤ) = ⌊1000000 * a / r⌋) (n : Word) :
    ((realTicks N n).toNat : ℚ) ≤ n.toNat * a / r ∧
      n.toNat * a / r < (realTicks N n).toNat + (1 + (n.toNat : ℚ) / 1000000) := by
  have hquot : ((realTicks N n).toNat : ℚ) ≤ n.toNat * N.toNat / 1000000 ∧
      (n.toNat * N.toNat : ℚ) / 1000000 < (realTicks N n).toNat + 1 := by
    rw [realTicks_eq_floor (numerator_le hr ha hN)]
    exact ⟨Nat.floor_le (by positivity), Nat.lt_floor_add_one _⟩
  obtain ⟨hnum, hnum'⟩ := Int.floor_eq_iff.mp hN.symm
  rw [Int.cast_natCast] at hnum hnum'
  have hexact : (n.toNat * a / r : ℚ) = n.toNat * (1000000 * a / r) / 1000000 := by ring
  have hlow : (n.toNat * N.toNat : ℚ) ≤ n.toNat * (1000000 * a / r) := by
    gcongr
  have hhigh : (n.toNat * (1000000 * a / r) : ℚ) ≤ n.toNat * (N.toNat + 1) := by
    gcongr
  rw [hexact]
  constructor <;> linarith

/-- The true ratios of a record with a clock are positive (R7, W1). -/
theorem ratios_pos {c : Cfg} (h : c.W1) : 0 < c.rMs ∧ 0 < c.rUs := by
  obtain ⟨hf, hp⟩ := h
  have hp : 0 < c.presc := by
    simp only [Config.divisors, List.mem_cons, List.not_mem_nil, or_false] at hp
    omega
  constructor
  · rw [Cfg.rMs, ratioMs]
    positivity
  · rw [Cfg.rUs, ratioUs]
    positivity

/-- Settles O43: the slow bias W5 and the numerator rule W7, for both scalers. -/
theorem correctionIsCloseBelowExactCount : Obligations.CorrectionIsCloseBelowExactCount := by
  intro c n hwf htb
  obtain ⟨hrms, hrus⟩ := ratios_pos hwf.w1
  obtain ⟨hams, haus⟩ := hwf.w5 htb
  obtain ⟨hnms, hnus⟩ := hwf.w7 htb
  obtain ⟨hms, hms'⟩ := realTicks_bounds hrms hams hnms n
  obtain ⟨hus, hus'⟩ := realTicks_bounds hrus haus hnus n
  exact ⟨hms, hms', hus, hus'⟩

/-! ### The commands (R113 to R118) -/

/-- A command word is its opcode's 2^32-fold plus its operand. -/
theorem cmdWord_eq_add (o : BitVec 8) (a : Word) :
    (o ++ a : CmdWord) = BitVec.ofNat 40 (o.toNat * 2 ^ 32) + a.setWidth 40 := by
  apply BitVec.eq_of_toNat_eq
  rw [cmdWord_toNat, BitVec.toNat_add, BitVec.toNat_ofNat, BitVec.toNat_setWidth]
  omega

/-- ISSUE of a command of the build latches its opcode and operand. -/
theorem exec_idle_present {i : Instr} {s : State} (hb : s.busy = false) (hp : i.presentIn s.cfg.tben = true) :
    exec i s = .next (accept i s) := by
  rw [exec_idle hb, issue_present hp]

/-- ISSUE of a command the build does not have raises `Absent`. -/
theorem exec_idle_absent {i : Instr} {s : State} (hb : s.busy = false) (hp : i.presentIn s.cfg.tben = false) :
    exec i s = .next (raise .absent s) := by
  rw [exec_idle hb, issue_absent hp]

/-- A 32-bit operand field has no reserved bit, so the opcode alone makes the word legal (R71). -/
theorem decode_c32 {w : CmdWord} {i : Instr} (hi : instrOfOpc (opcField w) (immField w) = some i)
    (hf : i.format = .c32) : decode w = .ok i :=
  decode_ok.mpr ⟨hi, by rw [hf]; exact BitVec.ushiftRight_eq_zero le_rfl⟩

/-- A command without an operand has only reserved bits in its operand field (R71). -/
theorem decode_c0_reserved {w : CmdWord} {i : Instr} (hi : instrOfOpc (opcField w) (immField w) = some i)
    (hf : i.format = .c0) (hr : immField w ≠ 0) : decode w = .error .reservedOperandBits :=
  decode_reserved hi (by rw [hf]; simpa [Format.usedBits] using hr)

/-- Settles O44: presence is `TBEN`, and the one phase completes with the correction of `ARG`. -/
theorem correctionCommandsScaleOperand : Obligations.CorrectionCommandsScaleOperand := by
  refine ⟨fun n => ⟨cmdWord_eq_add 0x22 n, cmdWord_eq_add 0x23 n⟩, fun w => ⟨fun ho => ?_, fun ho => ?_⟩,
    fun s n hb htb => ⟨exec_idle_present hb htb, exec_idle_present hb htb⟩,
    fun s n hb htb => ⟨exec_idle_absent hb htb, exec_idle_absent hb htb⟩, fun s n hb htb hph harg => ?_⟩
  · exact decode_c32 (by rw [ho]; rfl) rfl
  · exact decode_c32 (by rw [ho]; rfl) rfl
  · subst harg
    rw [exec_busy (i := .rlms s.arg) hb htb, exec_busy (i := .rlus s.arg) hb htb]
    exact ⟨onePhase_next.mpr ⟨hph, rfl⟩, onePhase_next.mpr ⟨hph, rfl⟩⟩

/-- A clock read in progress runs `MaskedScale` with the constants of its scaler (R114, R115). -/
theorem exec_clockRead {i : Instr} {K S : Word} {s : State} (hb : s.busy = true) (htb : s.cfg.tben = true)
    (hi : i = .rdms ∧ K = s.cfg.kms ∧ S = s.cfg.sms ∨ i = .rdus ∧ K = s.cfg.kus ∧ S = s.cfg.sus) :
    exec i s = maskedScale K S s := by
  obtain ⟨rfl, rfl, rfl⟩ | ⟨rfl, rfl, rfl⟩ := hi
  · exact exec_busy hb htb
  · exact exec_busy hb htb

theorem maskedScale_first {s : State} (hph : s.ph = 0) (K S : Word) :
    maskedScale K S s = .next (goto 1 (saveAndMask s)) := by
  unfold maskedScale
  rw [hph]
  rfl

theorem maskedScale_last {s : State} (hph : s.ph = 5) (K S : Word) :
    maskedScale K S s = .next (done (scale K S s.snap) (restoreIe s)) := by
  unfold maskedScale
  rw [hph]
  rfl

/-- Settles O45: one lemma for each kind of phase; a copied byte leaves the others. -/
theorem maskedReadPhases : Obligations.MaskedReadPhases := by
  intro s i K S hb htb hi
  rw [exec_clockRead hb htb hi]
  refine ⟨fun hph => maskedScale_first hph K S, fun k hph => ⟨setByte s.snap k (memRead s k), ?_, ?_, fun j hj => ?_⟩,
    fun hph => maskedScale_last hph K S⟩
  · have hph : s.ph = BitVec.ofNat 3 (k.val + 1) := by rw [← hph, BitVec.ofNat_toNat, BitVec.setWidth_eq]
    exact maskedScale_copy k hph K S
  · rw [byteOf_setByte, if_pos rfl]
  · rw [byteOf_setByte, if_neg hj]

/-- Settles O46: presence is `TBEN`, and neither command has an operand. -/
theorem clockReadsAreIssued : Obligations.ClockReadsAreIssued := by
  refine ⟨⟨rfl, rfl⟩, fun w ho hr => ?_, fun s hb htb => ⟨exec_idle_present hb htb, exec_idle_present hb htb⟩,
    fun s hb htb => ⟨exec_idle_absent hb htb, exec_idle_absent hb htb⟩⟩
  obtain ho | ho := ho
  · exact decode_c0_reserved (i := .rdms) (by rw [ho]; rfl) rfl hr
  · exact decode_c0_reserved (i := .rdus) (by rw [ho]; rfl) rfl hr

end Sys2Proof.Machine
end

section
/-! PROOFS. The delays (spec 42_delay.md): the iteration count, the phases of `DLYUS` and `DLYMS`, how many SEQ steps each
takes, what they neither read nor write, and their durations. -/

namespace Sys2Proof.Machine

/-! ### The iteration count (R130) -/

/-- The first `n` shifts of `x` leave at least the last of them of `x`: each takes at most half of what the ones before
left. -/
theorem sum_shr_add_shr_le (x n : Nat) : ((List.range' 1 n).map (shr x)).sum + shr x n ≤ x := by
  induction n with
  | zero => simp [shr]
  | succ n ih =>
    have hhalf : shr x (n + 1) = shr x n / 2 := by rw [shr, shr, Nat.pow_succ, Nat.div_div_eq_div_mul]
    rw [List.range'_1_concat, List.map_append, List.sum_append, List.map_singleton, List.sum_singleton, Nat.add_comm 1 n]
    omega

/-- The selected shifts add up to no more than the value shifted. -/
theorem shiftSum_le (S : Word) (x : Nat) : shiftSum S x ≤ x := by
  have hsub : shiftSum S x ≤ ((List.range' 1 31).map (shr x)).sum :=
    (List.filter_sublist.map (shr x)).sum_le_sum fun _ _ => Nat.zero_le _
  exact hsub.trans ((Nat.le_add_right _ _).trans (sum_shr_add_shr_le x 31))

/-- `T(us)` stays within 32 bits (R130). -/
theorem loopTotal_le (KD : BitVec 16) (SD : Word) (us : BitVec 16) : loopTotal KD SD us ≤ 4294901760 := by
  have hprod : KD.toNat * us.toNat ≤ 65535 * 65535 := Nat.mul_le_mul (by omega) (by omega)
  have hshift : shiftSum SD us.toNat ≤ 65535 := (shiftSum_le SD us.toNat).trans (by omega)
  rw [loopTotal]
  omega

/-- Nothing is lost when `Iters` is narrowed to the 32 bits of `ITER`. -/
@[simp] theorem iters_toNat (KD : BitVec 16) (SD OVH : Word) (us : BitVec 16) :
    (iters KD SD OVH us).toNat = loopTotal KD SD us - OVH.toNat := by
  have hle := loopTotal_le KD SD us
  rw [iters, itersNat, BitVec.toNat_ofNat, Nat.mod_eq_of_lt (by omega)]

theorem loopTotal_mono (KD : BitVec 16) (SD : Word) {a b : BitVec 16} (h : a ≤ b) :
    loopTotal KD SD a ≤ loopTotal KD SD b :=
  Nat.add_le_add (Nat.mul_le_mul_left _ h) (shiftSum_mono SD h)

/-- Settles O48: the shifts add at most `us` to the product, and the floor W9 keeps `T` above the overhead. -/
theorem iterationCountNeverWraps : Obligations.IterationCountNeverWraps := by
  refine ⟨fun c us => ⟨?_, loopTotal_le c.kd c.sd us, ?_⟩, fun c us hwf hmin => ?_⟩
  · rw [loopTotal, shiftSum_eq_sum_range]
  · rw [iters_toNat]
    omega
  · have hfloor : c.ovh.toNat < loopTotal c.kd c.sd us := hwf.w9 us hmin
    rw [iters_toNat]
    omega

/-- Settles O49: `T` is monotone, and so is the saturating subtraction. -/
theorem longerRequestsNeverLoopLess : Obligations.LongerRequestsNeverLoopLess := by
  intro c a b h
  rw [BitVec.le_def, iters_toNat, iters_toNat]
  exact Nat.sub_le_sub_right (loopTotal_mono c.kd c.sd h) _

/-! ### The phases (R131 to R134) -/

/-- What `DLYUS` compares with `MIN` is its operand. -/
theorem argMicros_of_arg {s : State} {us : BitVec 16} (h : s.arg = us.setWidth 32) : argMicros s = us := by
  rw [argMicros, h, BitVec.extractLsb'_setWidth_of_le (by decide), BitVec.extractLsb'_eq_self]

theorem arg_toNat_of_micros {s : State} {us : BitVec 16} (h : s.arg = us.setWidth 32) : s.arg.toNat = us.toNat := by
  rw [h, BitVec.toNat_setWidth_of_le (by decide)]

section
variable {s : State}

theorem delayMicros_early (hph : s.ph = 0) (h : s.arg.toNat ≤ s.cfg.min.toNat) : delayMicros s = .next (done 0 s) := by
  unfold delayMicros
  rw [hph]
  exact congrArg _ (if_pos h)

theorem delayMicros_start (hph : s.ph = 0) (h : s.cfg.min.toNat < s.arg.toNat) :
    delayMicros s = .next (goto 1 (loadIter (s.cfg.iters (argMicros s)) s)) := by
  unfold delayMicros
  rw [hph]
  exact congrArg _ (if_neg h.not_ge)

theorem delayMicros_iterate (hph : s.ph = 1) (h : s.iter ≠ 0) : delayMicros s = .next (loadIter (s.iter - 1) s) := by
  unfold delayMicros
  rw [hph]
  exact congrArg _ (if_neg h)

theorem delayMicros_exit (hph : s.ph = 1) (h : s.iter = 0) : delayMicros s = .next (done 0 s) := by
  unfold delayMicros
  rw [hph]
  exact congrArg _ (if_pos h)

theorem delayMillis_start (hph : s.ph = 0) : delayMillis s = .next (goto 1 (loadMsrem s.arg s)) := by
  unfold delayMillis
  rw [hph]
  rfl

theorem delayMillis_finish (hph : s.ph = 1) (h : s.msrem = 0) : delayMillis s = .next (done 0 s) := by
  unfold delayMillis
  rw [hph]
  exact congrArg _ (if_pos h)

theorem delayMillis_skip (hph : s.ph = 1) (h : s.msrem ≠ 0) (hmin : 1000 ≤ s.cfg.min.toNat) :
    delayMillis s = .next (goto 1 (loadMsrem (s.msrem - 1) s)) := by
  unfold delayMillis
  rw [hph]
  exact congrArg _ ((if_neg h).trans (if_pos hmin))

theorem delayMillis_enter (hph : s.ph = 1) (h : s.msrem ≠ 0) (hmin : s.cfg.min.toNat < 1000) :
    delayMillis s = .next (goto 2 (loadIter (s.cfg.iters 1000) (loadMsrem (s.msrem - 1) s))) := by
  unfold delayMillis
  rw [hph]
  exact congrArg _ ((if_neg h).trans (if_neg hmin.not_ge))

theorem delayMillis_iterate (hph : s.ph = 2) (h : s.iter ≠ 0) : delayMillis s = .next (loadIter (s.iter - 1) s) := by
  unfold delayMillis
  rw [hph]
  exact congrArg _ (if_neg h)

theorem delayMillis_exit (hph : s.ph = 2) (h : s.iter = 0) : delayMillis s = .next (goto 1 s) := by
  unfold delayMillis
  rw [hph]
  exact congrArg _ (if_pos h)

end

/-- Settles O50: ISSUE accepts in every build, and each phase is the lemma of its case. -/
theorem microsecondDelayPhases : Obligations.MicrosecondDelayPhases := by
  refine ⟨fun us => ?_, fun w ho hr => ?_, fun s us hb => exec_idle_present hb rfl, fun s us hb harg => ?_⟩
  · refine (cmdWord_eq_add 0x30 (us.setWidth 32)).trans ?_
    rw [BitVec.setWidth_setWidth (by decide)]
    rfl
  · exact decode_reserved (i := .dlyus ((immField w).extractLsb' 0 16)) (by rw [ho]; rfl) hr
  · have hreq := arg_toNat_of_micros harg
    have hexec : exec (.dlyus us) s = delayMicros s := exec_busy hb rfl
    rw [hexec]
    refine ⟨fun hph hle => delayMicros_early hph (hreq.trans_le hle), fun hph hlt => ?_, delayMicros_iterate,
      delayMicros_exit⟩
    rw [delayMicros_start hph (by rw [hreq]; exact hlt), argMicros_of_arg harg]
    rfl

/-- Settles O51: ISSUE accepts in every build, and each phase is the lemma of its case. -/
theorem millisecondDelayPhases : Obligations.MillisecondDelayPhases := by
  refine ⟨cmdWord_eq_add 0x31, fun w ho => decode_c32 (by rw [ho]; rfl) rfl, fun s ms hb => exec_idle_present hb rfl,
    fun s ms hb harg => ?_⟩
  subst harg
  have hexec : exec (.dlyms s.arg) s = delayMillis s := exec_busy hb rfl
  rw [hexec]
  refine ⟨delayMillis_start, delayMillis_finish, fun hph hms hmin => ?_, delayMillis_enter, delayMillis_iterate,
    delayMillis_exit⟩
  rw [delayMillis_skip hph hms hmin, ← hph]
  rfl

/-! ### How many SEQ steps a delay takes (R132 to R135) -/

/-- How many SEQ steps one millisecond of a `DLYMS` takes: its turn at phase 1 and, unless 1000 is at or below `MIN`, the
iterations of the loop and its exit (R134). -/
def roundSteps (c : Cfg) : Nat := if 1000 ≤ c.min.toNat then 1 else 2 + (c.iters 1000).toNat

theorem roundSteps_skip {c : Cfg} (h : 1000 ≤ c.min.toNat) : roundSteps c = 1 := if_pos h

theorem roundSteps_loop {c : Cfg} (h : c.min.toNat < 1000) : roundSteps c = 2 + (c.iters 1000).toNat :=
  if_neg h.not_ge

theorem roundSteps_pos (c : Cfg) : 0 < roundSteps c := by
  rw [roundSteps]
  split <;> omega

/-- The steps of `k` milliseconds, not 0, are those of the next one and those of the others. -/
theorem mul_roundSteps_of_ne_zero {k : Word} (h : k ≠ 0) (c : Cfg) :
    k.toNat * roundSteps c = (k - 1).toNat * roundSteps c + roundSteps c := by
  rw [← toNat_sub_one h, Nat.succ_mul]

/-- The delay in progress has `n` SEQ steps to go: one case for each phase, and the two starts of a `DLYUS`. -/
inductive StepsLeft (s : State) (n : Nat) : Prop where
  | microsEarly (hop : s.opc = 0x30) (hph : s.ph = 0) (hmin : s.arg.toNat ≤ s.cfg.min.toNat) (hn : n = 1)
  | microsStart (hop : s.opc = 0x30) (hph : s.ph = 0) (hmin : s.cfg.min.toNat < s.arg.toNat)
      (hn : n = 2 + (s.cfg.iters (argMicros s)).toNat)
  | microsLoop (hop : s.opc = 0x30) (hph : s.ph = 1) (hn : n = 1 + s.iter.toNat)
  | millisStart (hop : s.opc = 0x31) (hph : s.ph = 0) (hn : n = 2 + s.arg.toNat * roundSteps s.cfg)
  | millisRound (hop : s.opc = 0x31) (hph : s.ph = 1) (hn : n = 1 + s.msrem.toNat * roundSteps s.cfg)
  | millisLoop (hop : s.opc = 0x31) (hph : s.ph = 2)
      (hn : n = 2 + s.iter.toNat + s.msrem.toNat * roundSteps s.cfg)

theorem stepWith_seq_micros {s : State} (hb : s.busy = true) (hop : s.opc = 0x30) :
    stepWith .seq s = delayMicros s.pulseOver :=
  stepWith_seq (i := .dlyus (argMicros s)) hb (by rw [hop]; rfl) rfl

theorem stepWith_seq_millis {s : State} (hb : s.busy = true) (hop : s.opc = 0x31) :
    stepWith .seq s = delayMillis s.pulseOver :=
  stepWith_seq (i := .dlyms s.arg) hb (by rw [hop]; rfl) rfl

/-- A SEQ step that is not the last takes one from the steps left and writes `ITER`, `MSREM` and `PH` alone. -/
theorem StepsLeft.seq {s : State} {n : Nat} (hb : s.busy = true) (h : StepsLeft s (n + 2)) :
    ∃ i m p, stepWith .seq s = .next { s.pulseOver with iter := i, msrem := m, ph := p } ∧
      StepsLeft { s.pulseOver with iter := i, msrem := m, ph := p } (n + 1) := by
  cases h with
  | microsEarly _ _ _ hn => omega
  | microsStart hop hph hmin hn =>
    have hleft : n + 1 = 1 + (s.cfg.iters (argMicros s)).toNat := by omega
    rw [stepWith_seq_micros hb hop]
    exact ⟨_, _, _, delayMicros_start (s := s.pulseOver) hph hmin, .microsLoop hop rfl hleft⟩
  | microsLoop hop hph hn =>
    have hiter : s.iter ≠ 0 := fun h0 => by simp [h0] at hn
    have hleft : n + 1 = 1 + (s.iter - 1).toNat := by have := toNat_sub_one hiter; omega
    rw [stepWith_seq_micros hb hop]
    exact ⟨_, _, _, delayMicros_iterate (s := s.pulseOver) hph hiter, .microsLoop hop hph hleft⟩
  | millisStart hop hph hn =>
    have hleft : n + 1 = 1 + s.arg.toNat * roundSteps s.cfg := by omega
    rw [stepWith_seq_millis hb hop]
    exact ⟨_, _, _, delayMillis_start (s := s.pulseOver) hph, .millisRound hop rfl hleft⟩
  | millisRound hop hph hn =>
    have hms : s.msrem ≠ 0 := fun h0 => by simp [h0] at hn
    rw [mul_roundSteps_of_ne_zero hms] at hn
    rw [stepWith_seq_millis hb hop]
    obtain hmin | hmin := le_or_gt 1000 s.cfg.min.toNat
    · have hleft : n + 1 = 1 + (s.msrem - 1).toNat * roundSteps s.cfg := by have := roundSteps_skip hmin; omega
      exact ⟨_, _, _, delayMillis_skip (s := s.pulseOver) hph hms hmin, .millisRound hop rfl hleft⟩
    · have hleft : n + 1 = 2 + (s.cfg.iters 1000).toNat + (s.msrem - 1).toNat * roundSteps s.cfg := by
        have := roundSteps_loop hmin
        omega
      exact ⟨_, _, _, delayMillis_enter (s := s.pulseOver) hph hms hmin, .millisLoop hop rfl hleft⟩
  | millisLoop hop hph hn =>
    rw [stepWith_seq_millis hb hop]
    by_cases hiter : s.iter = 0
    · have hleft : n + 1 = 1 + s.msrem.toNat * roundSteps s.cfg := by
        have hzero : s.iter.toNat = 0 := congrArg BitVec.toNat hiter
        omega
      exact ⟨_, _, _, delayMillis_exit (s := s.pulseOver) hph hiter, .millisRound hop rfl hleft⟩
    · have hleft : n + 1 = 2 + (s.iter - 1).toNat + s.msrem.toNat * roundSteps s.cfg := by
        have := toNat_sub_one hiter
        omega
      exact ⟨_, _, _, delayMillis_iterate (s := s.pulseOver) hph hiter, .millisLoop hop hph hleft⟩

/-- A delay with one step left is a request at or below `MIN`, or has no iteration and no millisecond to go. -/
theorem StepsLeft.last {s : State} (h : StepsLeft s 1) :
    (s.opc = 0x30 ∧ s.ph = 0 ∧ s.arg.toNat ≤ s.cfg.min.toNat) ∨ (s.opc = 0x30 ∧ s.ph = 1 ∧ s.iter = 0) ∨
      (s.opc = 0x31 ∧ s.ph = 1 ∧ s.msrem = 0) := by
  cases h with
  | microsEarly hop hph hmin _ => exact .inl ⟨hop, hph, hmin⟩
  | microsLoop hop hph hn =>
    have hzero : s.iter.toNat = 0 := by omega
    exact .inr (.inl ⟨hop, hph, BitVec.eq_of_toNat_eq hzero⟩)
  | millisRound hop hph hn =>
    have hzero : s.msrem.toNat * roundSteps s.cfg = 0 := by omega
    have hms : s.msrem.toNat = 0 := (Nat.mul_eq_zero.mp hzero).resolve_right (roundSteps_pos s.cfg).ne'
    exact .inr (.inr ⟨hop, hph, BitVec.eq_of_toNat_eq hms⟩)
  | microsStart _ _ _ hn | millisStart _ _ hn | millisLoop _ _ hn => omega

/-- The last SEQ step completes with `(OK, 0)`. -/
theorem StepsLeft.seq_last {s : State} (hb : s.busy = true) (h : StepsLeft s 1) :
    stepWith .seq s = .next (done 0 s.pulseOver) := by
  obtain ⟨hop, hph, hmin⟩ | ⟨hop, hph, hiter⟩ | ⟨hop, hph, hms⟩ := h.last
  · exact (stepWith_seq_micros hb hop).trans (delayMicros_early (s := s.pulseOver) hph hmin)
  · exact (stepWith_seq_micros hb hop).trans (delayMicros_exit (s := s.pulseOver) hph hiter)
  · exact (stepWith_seq_millis hb hop).trans (delayMillis_finish (s := s.pulseOver) hph hms)

/-- An event or a turn of the interrupt agent writes `OVRF` and `OVP` alone. -/
theorem stepWith_interrupt {m : Move} (hm : m = .ev ∨ m = .inc) (s : State) :
    ∃ c p, stepWith m s = .next { s.pulseOver with ovrf := c, ovp := p } := by
  obtain rfl | rfl := hm
  · exact ⟨_, _, stepWith_ev s⟩
  · cases hinc : incEnabled s with
    | false => exact ⟨_, _, stepWith_inc_disabled hinc⟩
    | true => exact ⟨_, _, stepWith_inc_enabled hinc⟩

/-- The steps left do not depend on the counter and the pending flag. -/
theorem StepsLeft.of_interrupt {s : State} {n : Nat} (h : StepsLeft s n) (c : Word) (p : Bool) :
    StepsLeft { s.pulseOver with ovrf := c, ovp := p } n := by
  cases h with
  | microsEarly hop hph hmin hn => exact .microsEarly hop hph hmin hn
  | microsStart hop hph hmin hn => exact .microsStart hop hph hmin hn
  | microsLoop hop hph hn => exact .microsLoop hop hph hn
  | millisStart hop hph hn => exact .millisStart hop hph hn
  | millisRound hop hph hn => exact .millisRound hop hph hn
  | millisLoop hop hph hn => exact .millisLoop hop hph hn

/-- `t` is in the delay that `s` is in, with `n` SEQ steps to go, and `IE` and `FAULT` are those of `s`. -/
structure InDelay (s : State) (n : Nat) (t : State) : Prop where
  busy : t.busy = true
  cfg : t.cfg = s.cfg
  opc : t.opc = s.opc
  arg : t.arg = s.arg
  ie : t.ie = s.ie
  fault : t.fault = s.fault
  left : StepsLeft t n

/-- A SEQ step that is not the last goes on in the delay and emits nothing. -/
theorem InDelay.seq {s u : State} {n : Nat} (h : InDelay s (n + 2) u) :
    ∃ t, RunEmits [.seq] u [] t ∧ InDelay s (n + 1) t := by
  obtain ⟨i, m, p, hstep, hleft⟩ := h.left.seq h.busy
  exact ⟨_, .single hstep, h.busy, h.cfg, h.opc, h.arg, h.ie, h.fault, hleft⟩

/-- Events and turns of the interrupt agent take no step of a delay (R135). -/
theorem InDelay.interrupt {m : Move} (hm : m = .ev ∨ m = .inc) {s u : State} {n : Nat} (h : InDelay s n u) :
    ∃ t, RunEmits [m] u [] t ∧ InDelay s n t := by
  obtain ⟨c, p, hstep⟩ := stepWith_interrupt hm u
  exact ⟨_, .single hstep, h.busy, h.cfg, h.opc, h.arg, h.ie, h.fault, h.left.of_interrupt c p⟩

/-- Along an undisturbed schedule each SEQ step takes one from the steps left, and nothing else does. -/
theorem InDelay.run {mid : List Move} (hmid : undisturbed mid) {s u : State} {n : Nat}
    (h : InDelay s (n + 1 + mid.count .seq) u) : ∃ t, RunEmits mid u [] t ∧ InDelay s (n + 1) t := by
  induction mid generalizing u with
  | nil => exact ⟨u, .nil u, h⟩
  | cons m mid ih =>
    have hrest : undisturbed mid := fun k hk => hmid k (List.mem_cons_of_mem m hk)
    have hfirst : ∃ v, RunEmits [m] u [] v ∧ InDelay s (n + 1 + mid.count .seq) v := by
      obtain rfl | hm := hmid m List.mem_cons_self
      · rw [List.count_cons_self, ← Nat.add_assoc, Nat.add_right_comm n] at h
        rw [Nat.add_right_comm]
        exact h.seq
      · rw [List.count_cons_of_ne (by rintro rfl; simp at hm)] at h
        exact h.interrupt hm
    obtain ⟨v, hv, hleft⟩ := hfirst
    obtain ⟨t, ht, hend⟩ := ih hrest hleft
    exact ⟨t, hv.append ht, hend⟩

/-- A delay completes in the last of its SEQ steps, busy and silent before it, and keeps `IE` and `FAULT`; `t` is the
state that its last step finds. -/
theorem delay_completes {s : State} {mid : List Move} (hb : s.busy = true) (hmid : undisturbed mid)
    (h : StepsLeft s (mid.count .seq + 1)) :
    ∃ t, RunEmits mid s [] t ∧ InDelay s 1 t ∧ runMoves (mid ++ [.seq]) s = .next (done 0 t.pulseOver) := by
  rw [Nat.add_comm] at h
  obtain ⟨t, ht, hlast⟩ := InDelay.run (n := 0) hmid ⟨hb, rfl, rfl, rfl, rfl, rfl, by rwa [Nat.zero_add]⟩
  exact ⟨t, ht, hlast,
    runMoves_append_next.mpr ⟨t, ht.runs, runMoves_cons_next.mpr ⟨_, hlast.left.seq_last hlast.busy, rfl⟩⟩⟩

/-- Settles O52: the steps left at phase 0 are those of R132, and only SEQ steps take from them. -/
theorem microsecondDelayLength : Obligations.MicrosecondDelayLength := by
  intro s us mid hb hop hph harg hmid hcount
  have hreq := arg_toNat_of_micros harg
  have hleft : StepsLeft s (mid.count .seq + 1) := by
    rw [hcount]
    split
    next hle => exact .microsEarly hop hph (hreq.trans_le hle) rfl
    next hgt => exact .microsStart hop hph (by rw [hreq]; exact Nat.lt_of_not_le hgt) (by rw [argMicros_of_arg harg])
  obtain ⟨t, ht, hin, hrun⟩ := delay_completes hb hmid hleft
  refine ⟨⟨t, ht.runs, hin.busy⟩, ht.emits, _, hrun, rfl, rfl, rfl, hin.ie, hin.fault, fun hmin => ?_⟩
  have hmin : t.cfg.min.toNat < t.arg.toNat := by rw [hin.cfg, hin.arg, hreq]; exact hmin
  obtain ⟨-, -, hle⟩ | ⟨-, -, hiter⟩ | ⟨hop', -, -⟩ := hin.left.last
  · exact absurd hmin hle.not_gt
  · exact hiter
  · rw [hin.opc, hop] at hop'
    exact absurd hop' (by decide)

/-- Settles O53: the steps left at phase 0 are those of R134, and only SEQ steps take from them. -/
theorem millisecondDelayLength : Obligations.MillisecondDelayLength := by
  intro s mid hb hop hph hmid hcount
  have hleft : StepsLeft s (mid.count .seq + 1) := by
    refine .millisStart hop hph ?_
    rw [hcount]
    split
    next hmin => rw [roundSteps_skip hmin, Nat.mul_one]
    next hmin => rw [roundSteps_loop (Nat.lt_of_not_le hmin)]
  obtain ⟨t, ht, hin, hrun⟩ := delay_completes hb hmid hleft
  refine ⟨⟨t, ht.runs, hin.busy⟩, ht.emits, _, hrun, rfl, rfl, rfl, hin.ie, hin.fault, ?_⟩
  have hop' : t.opc ≠ 0x30 := by rw [hin.opc, hop]; decide
  obtain ⟨h30, -⟩ | ⟨h30, -⟩ | ⟨-, -, hms⟩ := hin.left.last
  · exact absurd h30 hop'
  · exact absurd h30 hop'
  · exact hms

/-! ### What a delay neither reads nor writes (R132, R134) -/

/-- `s` with the counter, the pending bit and the two flags of `r`. -/
def withCounterOf (r s : State) : State := { s with ie := r.ie, ovp := r.ovp, ovrf := r.ovrf, fault := r.fault }

theorem agreeOffCounter_iff {s t : State} : agreeOffCounter s t ↔ withCounterOf t s = t := Iff.rfl

theorem loopStep_withCounterOf {exit : State → State} {r : State}
    (hexit : ∀ s, exit (withCounterOf r s) = withCounterOf r (exit s)) (s : State) :
    loopStep exit (withCounterOf r s) = withCounterOf r (loopStep exit s) := by
  unfold loopStep
  rw [apply_ite (withCounterOf r), hexit]
  rfl

theorem startDelay_withCounterOf {early : State → State} {r : State}
    (hearly : ∀ s, early (withCounterOf r s) = withCounterOf r (early s)) (request : Nat) (us : BitVec 16)
    (loop : BitVec 3) (s : State) :
    startDelay request us early loop (withCounterOf r s) = withCounterOf r (startDelay request us early loop s) := by
  unfold startDelay
  rw [apply_ite (withCounterOf r), hearly]
  rfl

/-- A phase of `DLYUS` commutes with a change of the counter and the flags. -/
theorem delayMicros_withCounterOf (r s : State) :
    delayMicros (withCounterOf r s) = (delayMicros s).andThen (fun u => .next (withCounterOf r u)) := by
  unfold delayMicros
  rw [show (withCounterOf r s).ph = s.ph from rfl]
  split
  · exact congrArg _ (startDelay_withCounterOf (early := done 0) (r := r) (fun _ => rfl) _ _ _ s)
  · exact congrArg _ (loopStep_withCounterOf (exit := done 0) (r := r) (fun _ => rfl) s)
  · rfl

/-- A phase of `DLYMS` commutes with a change of the counter and the flags. -/
theorem delayMillis_withCounterOf (r s : State) :
    delayMillis (withCounterOf r s) = (delayMillis s).andThen (fun u => .next (withCounterOf r u)) := by
  unfold delayMillis
  rw [show (withCounterOf r s).ph = s.ph from rfl]
  split
  · rfl
  · rw [andThen_next, apply_ite (withCounterOf r),
      ← startDelay_withCounterOf (early := goto 1) (r := r) (fun _ => rfl)]
    rfl
  · exact congrArg _ (loopStep_withCounterOf (exit := goto 1) (r := r) (fun _ => rfl) s)
  · rfl

theorem delay_of_opc {i : Instr} (h : i.opc = 0x30 ∨ i.opc = 0x31) : (∃ us, i = .dlyus us) ∨ ∃ ms, i = .dlyms ms := by
  cases i with
  | dlyus us => exact .inl ⟨us, rfl⟩
  | dlyms ms => exact .inr ⟨ms, rfl⟩
  | _ => simp [Instr.opc] at h

/-- Every phase of a delay commutes with a change of the counter and the flags. -/
theorem phaseOf_withCounterOf {i : Instr} (hi : i.opc = 0x30 ∨ i.opc = 0x31) (r s : State) :
    phaseOf i (withCounterOf r s) = (phaseOf i s).andThen (fun u => .next (withCounterOf r u)) := by
  obtain ⟨us, rfl⟩ | ⟨ms, rfl⟩ := delay_of_opc hi
  · exact delayMicros_withCounterOf r s
  · exact delayMillis_withCounterOf r s

/-- The delays exist in every build (R76). -/
theorem delay_presentIn {i : Instr} (hi : i.opc = 0x30 ∨ i.opc = 0x31) (tben : Bool) : i.presentIn tben = true := by
  obtain ⟨us, rfl⟩ | ⟨ms, rfl⟩ := delay_of_opc hi <;> rfl

/-- A delay, issued or in progress, commutes with a change of the counter and the flags. -/
theorem exec_withCounterOf {i : Instr} (hi : i.opc = 0x30 ∨ i.opc = 0x31) (r s : State) :
    exec i (withCounterOf r s) = Result.andThen (exec i s) (fun u => .next (withCounterOf r u)) := by
  have hp := delay_presentIn hi s.cfg.tben
  cases hb : s.busy with
  | false =>
    rw [exec_idle_present hb hp, exec_idle_present (s := withCounterOf r s) hb hp]
    rfl
  | true =>
    rw [exec_busy hb hp, exec_busy (s := withCounterOf r s) hb hp]
    exact phaseOf_withCounterOf hi r s

/-- Settles O54: the second state is the first with its own counter and flags, and a delay commutes with that change. -/
theorem delaysIgnoreCounterAndFlags : Obligations.DelaysIgnoreCounterAndFlags := by
  intro s t i hi hst
  have hexec : exec i t = Result.andThen (exec i s) (fun u => .next (withCounterOf t u)) :=
    (congrArg (exec i) (agreeOffCounter_iff.mp hst)).symm.trans (exec_withCounterOf hi t s)
  refine ⟨fun u hu => ⟨withCounterOf t u, ?_, rfl, rfl, rfl, rfl, rfl⟩, fun e he => ?_⟩
  · rw [hexec, hu, andThen_next]
  · rw [hexec, he]
    rfl

/-! ### Durations (R205, R206) -/

/-- Every INC step inside a `DLYUS` adds `C_ISR` (R135). -/
theorem microsCycles_add (t : Timing) (c : Cfg) (us : BitVec 16) (j d : Nat) :
    microsCycles t c us (j + d) = microsCycles t c us j + d * t.cIsr := by
  unfold microsCycles
  split <;> ring

/-- The inner delays of a `DLYMS` last as long as undisturbed ones, and `C_ISR` more for each INC step in them. -/
theorem sum_microsCycles (t : Timing) (c : Cfg) (us : BitVec 16) (js : List Nat) :
    (js.map (microsCycles t c us)).sum = js.length * microsCycles t c us 0 + js.sum * t.cIsr := by
  induction js with
  | nil => simp
  | cons j js ih =>
    have hj := microsCycles_add t c us 0 j
    rw [Nat.zero_add] at hj
    rw [List.map_cons, List.sum_cons, List.sum_cons, List.length_cons, ih, hj]
    ring

/-- A millisecond that an inner delay lasts, in every inner delay, is a millisecond each for the `DLYMS`. -/
theorem length_mul_le_sum_microsCycles {t : Timing} {c : Cfg} {js : List Nat}
    (h : ∀ j ∈ js, c.fcpu ≤ microsCycles t c 1000 j * 1000) :
    js.length * c.fcpu ≤ (js.map (microsCycles t c 1000)).sum * 1000 := by
  rw [← List.sum_map_mul_right]
  simpa using List.card_nsmul_le_sum (js.map fun j => microsCycles t c 1000 j * 1000) c.fcpu (by simpa using h)

/-- With a set that never under-delays, an inner delay lasts a millisecond: with the expected INC steps inside it for the
calibrated set, with any for the oblivious set (R206). -/
theorem fcpu_le_microsCycles {t : Timing} {c : Cfg} (h : neverUnderDelays t c) {j : Nat}
    (hj : c.dcal = true → expectedInterrupts t c 1000 j) : c.fcpu ≤ microsCycles t c 1000 j * 1000 := by
  unfold neverUnderDelays at h
  split at h
  next hcal =>
    have hlong : 1000 * c.fcpu ≤ microsCycles t c 1000 j * 1000000 := h 1000 j (hj hcal)
    omega
  next =>
    have hlong : 1000 * c.fcpu ≤ microsCycles t c 1000 0 * 1000000 := h 1000
    have hmore := microsCycles_add t c 1000 0 j
    rw [Nat.zero_add] at hmore
    omega

/-- Settles O59: a `DLYMS` lasts its inner delays and more, and each of those lasts a millisecond. -/
theorem millisecondDelayNeverShort : Obligations.MillisecondDelayNeverShort := by
  refine ⟨fun t c us j k hjk => ?_, fun t c js outside => ?_, fun t c js outside hnever hexp => ?_⟩
  · rw [← microsCycles_add, Nat.add_sub_cancel' hjk]
  · rw [millisCycles, millisCycles, sum_microsCycles, sum_microsCycles]
    simp only [List.length_replicate, List.sum_replicate, smul_zero]
    ring
  · have hinner := length_mul_le_sum_microsCycles fun j hj =>
      fcpu_le_microsCycles hnever fun hcal => hexp hcal j hj
    refine hinner.trans (Nat.mul_le_mul_right 1000 ?_)
    rw [millisCycles, Nat.add_assoc, Nat.add_assoc]
    exact Nat.le_add_right _ _

end Sys2Proof.Machine
end

section
/-! PROOFS. The control commands (spec 43_control.md): each is issued in every build, and its one phase completes with the
value it responds with. -/

namespace Sys2Proof.Machine

/-- The SEQ step of a command of the build whose only phase is phase 0. -/
theorem exec_onePhase {i : Instr} {f : State → State} {s : State} (hf : phaseOf i = onePhase f) (hb : s.busy = true)
    (hp : i.presentIn s.cfg.tben = true) (hph : s.ph = 0) : exec i s = .next (f s) := by
  rw [exec_busy hb hp, hf]
  exact onePhase_next.mpr ⟨hph, rfl⟩

/-- Settles O26: `NOP` has no operand and needs no timebase, and its one phase is `done 0`. -/
theorem nopOnlyResponds : Obligations.NopOnlyResponds :=
  ⟨rfl, fun _ ho => decode_c0_reserved (i := .nop) (by rw [ho]; rfl) rfl, fun _ hb => exec_idle_present hb rfl,
    fun _ hb => exec_onePhase (i := .nop) rfl hb rfl⟩

/-- A flag as a result: 1 when it is set and 0 when it is clear. -/
theorem flagWord_eq_ite (b : Bool) : flagWord b = if b = true then 1 else 0 := by
  cases b <;> rfl

/-- Settles O28: the one phase of `IEGET` completes with `IE` as a word. -/
theorem iegetReturnsInterruptEnable : Obligations.IegetReturnsInterruptEnable := by
  refine ⟨rfl, fun w ho => decode_c0_reserved (i := .ieget) (by rw [ho]; rfl) rfl,
    fun s hb => exec_idle_present hb rfl, fun s hb hph => ?_⟩
  rw [← flagWord_eq_ite]
  exact exec_onePhase (i := .ieget) rfl hb rfl hph

/-- Bit 0 of `ARG` is the one-bit operand that ISSUE latched (R72). -/
theorem argBit_of_arg {s : State} {b : BitVec 1} (h : s.arg = b.setWidth 32) : argBit s = (b == 1#1) := by
  rw [argBit, h]
  exact getLsbD_operand_ieset b

/-- Settles O29: the one phase of `IESET` writes bit 0 of `ARG` to `IE`, and that bit is the operand. -/
theorem iesetWritesInterruptEnable : Obligations.IesetWritesInterruptEnable := by
  refine ⟨fun b => ?_, fun w ho hr => ?_, fun s b hb => exec_idle_present hb rfl, fun s b hb hph harg => ?_⟩
  · refine (cmdWord_eq_add 0x03 (b.setWidth 32)).trans ?_
    rw [BitVec.setWidth_setWidth (by decide)]
    rfl
  · exact decode_reserved (i := .ieset ((immField w).extractLsb' 0 1)) (by rw [ho]; rfl) hr
  · rw [← argBit_of_arg harg]
    exact exec_onePhase (i := .ieset b) rfl hb rfl hph

end Sys2Proof.Machine
end

section
/-! PROOFS. The exceptions (spec 60_exceptions.md): which words are refused and how, and what waits for the interrupt. -/

namespace Sys2Proof

/-! ### Words that select no row (R73, R162) -/

/-- Which rows need the timebase is which commands do: a word selects a row that the build lacks exactly when it decodes to
a command that the build lacks (R76). -/
theorem exists_absent_row_iff {w : CmdWord} {tben : Bool} :
    ((∃ r ∈ opcodeTable, w &&& r.mask = r.pattern ∧ r.needsTben = true) ∧ tben = false) ↔
      ∃ i, decode w = .ok i ∧ i.presentIn tben = false := by
  simp only [Instr.presentIn, Bool.or_eq_false_iff, Bool.not_eq_false']
  constructor
  · rintro ⟨⟨r, hr, hw, hneeds⟩, htb⟩
    obtain ⟨i, hd⟩ := decode_ok_iff_row.mpr ⟨r, hr, hw⟩
    obtain ⟨-, -, hrow⟩ := row_of_decode hd hr hw
    exact ⟨i, hd, hrow.trans hneeds, htb⟩
  · rintro ⟨i, hd, hneeds, htb⟩
    obtain ⟨r, hr, hw⟩ := decode_ok_iff_row.mp ⟨i, hd⟩
    obtain ⟨-, -, hrow⟩ := row_of_decode hd hr hw
    exact ⟨⟨r, hr, hw, hrow.symm.trans hneeds⟩, htb⟩

/-- A word with a command's opcode selects no row exactly when its operand field does not fit the command's format. -/
theorem no_row_iff_operand_overflows {w : CmdWord} {i : Instr} (ho : opcField w = i.opc) :
    (∀ r ∈ opcodeTable, w &&& r.mask ≠ r.pattern) ↔ 2 ^ i.format.usedBits ≤ (immField w).toNat := by
  obtain ⟨r, hr, hopc, hformat, -⟩ := exists_row_of_instr i
  rw [hformat, ← not_lt]
  constructor
  · intro hno hfits
    exact hno r hr ((row_selected w r hr).mpr ⟨ho.trans hopc, hfits⟩)
  · intro hover q hq hw
    obtain ⟨hoq, hfits⟩ := (row_selected w q hq).mp hw
    obtain rfl : q = r := row_opc_inj q hq r hr (hoq.symm.trans (ho.trans hopc))
    exact hover hfits

/-- A command has a near miss exactly when its format leaves reserved bits: all ones in the operand field are then too many. -/
theorem exists_nearMiss_iff {i : Instr} :
    (∃ w, opcField w = i.opc ∧ ∀ r ∈ opcodeTable, w &&& r.mask ≠ r.pattern) ↔ i.format ≠ .c32 := by
  constructor
  · rintro ⟨w, ho, hno⟩ hf
    have hover := (no_row_iff_operand_overflows ho).mp hno
    rw [hf] at hover
    exact absurd (immField w).isLt (not_lt.mpr hover)
  · intro hf
    have ho : opcField (i.opc ++ (0xFFFFFFFF : Word)) = i.opc := opcField_append _ _
    refine ⟨_, ho, (no_row_iff_operand_overflows ho).mpr ?_⟩
    rw [immField_append]
    cases h : i.format with
    | c32 => exact absurd h hf
    | c0 | c1 | c16 => decide

/-- The commands that use the whole operand field are `RLMS`, `RLUS` and `DLYMS`. -/
theorem format_ne_c32_iff {i : Instr} : i.format ≠ .c32 ↔ i.opc ≠ 0x22 ∧ i.opc ≠ 0x23 ∧ i.opc ≠ 0x31 := by
  cases i <;> simp [Instr.format, Instr.opc]

end Sys2Proof

namespace Sys2Proof.Machine

/-! ### What becomes of a presented word (R162, R163) -/

theorem respWord_illegal_ne_absent : respWord .illegal 0 ≠ respWord .absent 0 := by decide

section
variable {s t : State} {w : CmdWord} (hm : s.nextMove = .issue w) (hb : s.busy = false)
include hm hb

/-- An idle TBU refuses a word as `Illegal`, refuses it as `Absent`, or accepts it. -/
theorem step_issue_idle_cases :
    ((∃ r, decode w = .error r) ∧ step s = .next (raise .illegal s.afterTurn)) ∨
    (∃ i, decode w = .ok i ∧ i.presentIn s.cfg.tben = false ∧ step s = .next (raise .absent s.afterTurn)) ∨
    (∃ i, decode w = .ok i ∧ i.presentIn s.cfg.tben = true ∧ step s = .next (accept i s.afterTurn)) := by
  have hcases := stepIssue_cases w s.afterTurn
  have hstep : step s = stepIssue w s.afterTurn := step_of_nextMove hm
  simpa [hb, ← hstep] using hcases

/-- The step with which `Illegal` is raised is that of a word that decodes to no command. -/
theorem step_raises_illegal_iff : step s = .next (raise .illegal s.afterTurn) ↔ ¬∃ i, decode w = .ok i := by
  obtain ⟨⟨r, hd⟩, hstep⟩ | ⟨i, hd, -, hstep⟩ | ⟨i, hd, -, hstep⟩ := step_issue_idle_cases hm hb
  · simp [hstep, hd]
  · have hne : raise .absent s.afterTurn ≠ raise .illegal s.afterTurn :=
      fun e => respWord_illegal_ne_absent (Option.some.inj (congrArg State.resp e.symm))
    simp [hstep, hd, hne]
  · have hne : accept i s.afterTurn ≠ raise .illegal s.afterTurn :=
      fun e => absurd (congrArg State.resp e) (by simp)
    simp [hstep, hd, hne]

/-- An `Absent` response is the response to a word of a command that the build lacks. -/
theorem absent_response_iff (h : step s = .next t) :
    t.resp = some (respWord .absent 0) ↔ ∃ i, decode w = .ok i ∧ i.presentIn s.cfg.tben = false := by
  obtain ⟨⟨r, hd⟩, hstep⟩ | ⟨i, hd, hp, hstep⟩ | ⟨i, hd, hp, hstep⟩ := step_issue_idle_cases hm hb <;>
    cases hstep.symm.trans h
  · simpa [hd] using respWord_illegal_ne_absent
  · simp [hd, hp]
  · simp [hd, hp]

/-- The step with which `Absent` is raised is that of a word of a command that the build lacks. -/
theorem step_raises_absent_iff :
    step s = .next (raise .absent s.afterTurn) ↔ ∃ i, decode w = .ok i ∧ i.presentIn s.cfg.tben = false := by
  constructor
  · exact fun h => (absent_response_iff hm hb h).mp rfl
  · rintro ⟨i, hd, hp⟩
    exact (step_issue_exec hm hb hd).trans (exec_idle_absent (by simpa using hb) (by simpa using hp))

end

/-- Settles O23: a word decodes exactly when it selects a row, and near misses are what reserved bits leave room for. -/
theorem illegalRaisedExactlyWithoutRow : Obligations.IllegalRaisedExactlyWithoutRow := by
  refine ⟨fun s w hm hb => ?_, fun i => exists_nearMiss_iff.trans format_ne_c32_iff⟩
  have hrow : (∀ r ∈ opcodeTable, w &&& r.mask ≠ r.pattern) ↔ ¬∃ i, decode w = .ok i := by
    simp only [decode_ok_iff_row, not_exists, not_and]
  exact hrow.trans (step_raises_illegal_iff hm hb).symm

/-- Settles O24: the row of a word and the command it decodes to need the timebase alike. -/
theorem absentRaisedExactlyWithoutTimebase : Obligations.AbsentRaisedExactlyWithoutTimebase := by
  intro s w hm hb
  refine ⟨exists_absent_row_iff.trans (step_raises_absent_iff hm hb).symm, fun htb t h hr => ?_⟩
  obtain ⟨-, hoff⟩ := exists_absent_row_iff.mpr ((absent_response_iff hm hb h).mp hr)
  exact absurd hoff (by simp [htb])

/-! ### The pending event (R166, R167) -/

/-- A step keeps the pending bit, or is an event and may set it, or is a taken interrupt, which clears it and counts it, or
is RESET. -/
theorem step_ovp_cases {s t : State} (h : step s = .next t) :
    t.ovp = s.ovp ∨
    (s.nextMove = .ev ∧ t.ovp = (s.ovp || s.cfg.tben)) ∨
    (s.nextMove = .inc ∧ incEnabled s = true ∧ t.ovp = false ∧ t.ovrf = s.ovrf + 1) ∨
    s.nextMove = .reset := by
  cases step_turn h with
  | event hm => exact .inr (.inl ⟨hm, by simp⟩)
  | interrupt hm hinc => exact .inr (.inr (.inl ⟨hm, by simpa [incEnabled] using hinc, by simp, by simp⟩))
  | reset hm => exact .inr (.inr (.inr hm))
  | phase _ _ _ _ he =>
    obtain ⟨-, -, hovp, -⟩ := phaseOf_keeps he
    exact .inl (hovp.trans (afterTurn_ovp s))
  | interruptOff | portBusy | illegal | absent | accepted | sequencerIdle => exact .inl (afterTurn_ovp s)

/-- Settles O12: of the steps that may change `OVP`, an event only sets it and a taken interrupt only clears it. -/
theorem pendingEventWaitsForService : Obligations.PendingEventWaitsForService := by
  intro s t h hreset
  obtain hkept | ⟨hm, hset⟩ | ⟨hm, hinc, hcleared, hadd⟩ | hm := step_ovp_cases h
  · exact ⟨fun hop hno => by simp [hkept, hop] at hno, fun hop hyes => by simp [hkept, hop] at hyes⟩
  · exact ⟨fun hop hno => by simp [hset, hop] at hno, fun hop hyes => ⟨hm, by simpa [hop] using hset.symm.trans hyes⟩⟩
  · obtain ⟨htb, hie, -⟩ := incEnabled_iff.mp hinc
    exact ⟨fun _ _ => ⟨hm, htb, hie, hadd⟩, fun _ hyes => by simp [hcleared] at hyes⟩
  · exact absurd hm hreset

end Sys2Proof.Machine
end

section
/-! PROOFS. Reset and hazards (spec 70_reset_and_hazards.md): what RESET clears, that a fair schedule completes a command
and takes a pending increment, and how a run of a program ends. -/

namespace Sys2Proof.Machine

/-! ### RESET (R190 to R192) -/

/-- Settles O1: a RESET turn clears the registers of the state whose move is used up. -/
theorem resetStepClearsTwelveRegisters : Obligations.ResetStepClearsTwelveRegisters :=
  fun s hm => ⟨step_of_nextMove hm, afterTurn_resp s, afterTurn_cfg s⟩

/-! ### Runs from the invariant (R38) -/

/-- The schedule is no register. -/
theorem Inv.withMoves {s : State} (h : Inv s) (ms : List Move) : Inv { s with moves := ms } :=
  ⟨h.idle, h.legal, h.masked, h.noTimebase, h.snapshot, h.micros, h.millis⟩

/-- From a state of the invariant every move of a run has a step, and it keeps the invariant. -/
theorem Inv.stepWith_runs {s : State} (h : Inv s) (m : Move) : ∃ t, stepWith m s = .next t ∧ Inv t := by
  obtain ⟨t, ht⟩ := invariantStatesNeverStop _ (h.withMoves [m])
  exact ⟨t, ht, everyStepKeepsInvariant _ t (h.withMoves [m]) ht⟩

/-- From a state of the invariant every schedule runs to its end, in a state of the invariant. -/
theorem Inv.runMoves_runs {s : State} (h : Inv s) (ms : List Move) : ∃ t, runMoves ms s = .next t ∧ Inv t := by
  induction ms generalizing s with
  | nil => exact ⟨s, rfl, h⟩
  | cons m ms ih =>
    obtain ⟨u, hu, hinv⟩ := h.stepWith_runs m
    obtain ⟨t, ht, hend⟩ := ih hinv
    exact ⟨t, runMoves_cons_next.mpr ⟨u, hu, ht⟩, hend⟩

theorem Inv.of_runMoves {ms : List Move} {s t : State} (h : Inv s) (hrun : runMoves ms s = .next t) : Inv t := by
  obtain ⟨u, hu, hinv⟩ := h.runMoves_runs ms
  cases hu.symm.trans hrun
  exact hinv

/-- The next move of an endless schedule is a step of the state it has reached. -/
theorem runUntil_succ_of {σ : Nat → Move} {s u : State} {n : Nat} (h : runUntil σ s n = .next u) :
    runUntil σ s (n + 1) = stepWith (σ n) u := by
  rw [runUntil_succ, h, andThen_next]

/-! ### SEQ steps to go (R204) -/

/-- A bound on the SEQ steps that the command in progress has to go, by its opcode and phase: a `DLYUS` counts `ITER`
down, a `DLYMS` counts `ITER` and `MSREM` down, and a masked read goes through its six phases. -/
def seqRank (s : State) : Nat :=
  if s.opc = 0x30 then
    if s.ph = 0 then 2 + (s.cfg.iters (argMicros s)).toNat else 1 + s.iter.toNat
  else if s.opc = 0x31 then
    if s.ph = 0 then 2 + s.arg.toNat * roundSteps s.cfg
    else if s.ph = 1 then 1 + s.msrem.toNat * roundSteps s.cfg
    else 2 + s.iter.toNat + s.msrem.toNat * roundSteps s.cfg
  else 6 - s.ph.toNat

section
variable {s t : State}

theorem seqRank_maskedRead (hop : isMaskedRead s) : seqRank s = 6 - s.ph.toNat := by
  obtain hop | hop := hop <;> simp [seqRank, hop]

theorem seqRank_microsStart (hop : s.opc = 0x30) (hph : s.ph = 0) :
    seqRank s = 2 + (s.cfg.iters (argMicros s)).toNat := by
  rw [seqRank, if_pos hop, if_pos hph]

theorem seqRank_microsLoop (hop : s.opc = 0x30) (hph : s.ph = 1) : seqRank s = 1 + s.iter.toNat := by
  simp [seqRank, hop, hph]

theorem seqRank_millisStart (hop : s.opc = 0x31) (hph : s.ph = 0) :
    seqRank s = 2 + s.arg.toNat * roundSteps s.cfg := by
  simp [seqRank, hop, hph]

theorem seqRank_millisRound (hop : s.opc = 0x31) (hph : s.ph = 1) :
    seqRank s = 1 + s.msrem.toNat * roundSteps s.cfg := by
  simp [seqRank, hop, hph]

theorem seqRank_millisLoop (hop : s.opc = 0x31) (hph : s.ph = 2) :
    seqRank s = 2 + s.iter.toNat + s.msrem.toNat * roundSteps s.cfg := by
  simp [seqRank, hop, hph]

theorem maskedScale_seqRank_lt {K S : Word} (hop : isMaskedRead s) (h : maskedScale K S s = .next t)
    (hb : t.busy = true) : seqRank t < seqRank s := by
  obtain ⟨hph, rfl⟩ | ⟨k, hph, rfl⟩ | ⟨-, rfl⟩ := maskedScale_next h
  · have hafter : seqRank (goto 1 (saveAndMask s)) = 6 - 1 := seqRank_maskedRead hop
    rw [hafter, seqRank_maskedRead hop, hph]
    decide
  · have hafter : seqRank (goto (BitVec.ofNat 3 (k.val + 2)) (copyByte k s)) = 6 - (BitVec.ofNat 3 (k.val + 2)).toNat :=
      seqRank_maskedRead hop
    rw [hafter, seqRank_maskedRead hop, hph]
    fin_cases k <;> decide
  · simp at hb

theorem delayMicros_seqRank_lt (hop : s.opc = 0x30) (h : delayMicros s = .next t) (hb : t.busy = true) :
    seqRank t < seqRank s := by
  obtain ⟨-, -, rfl⟩ | ⟨hph, -, rfl⟩ | ⟨-, -, rfl⟩ | ⟨hph, hiter, rfl⟩ := delayMicros_next h
  · simp at hb
  · have hafter : seqRank (goto 1 (loadIter (s.cfg.iters (argMicros s)) s)) =
        1 + (s.cfg.iters (argMicros s)).toNat := seqRank_microsLoop hop rfl
    rw [hafter, seqRank_microsStart hop hph]
    omega
  · simp at hb
  · have hafter : seqRank (loadIter (s.iter - 1) s) = 1 + (s.iter - 1).toNat := seqRank_microsLoop hop hph
    rw [hafter, seqRank_microsLoop hop hph, ← toNat_sub_one hiter]
    omega

theorem delayMillis_seqRank_lt (hop : s.opc = 0x31) (h : delayMillis s = .next t) (hb : t.busy = true) :
    seqRank t < seqRank s := by
  obtain ⟨hph, rfl⟩ | ⟨-, -, rfl⟩ | ⟨hph, hrem, hmin, rfl⟩ | ⟨hph, hrem, hmin, rfl⟩ | ⟨hph, -, rfl⟩ |
    ⟨hph, hiter, rfl⟩ := delayMillis_next h
  · have hafter : seqRank (goto 1 (loadMsrem _ s)) = 1 + s.arg.toNat * roundSteps s.cfg := seqRank_millisRound hop rfl
    rw [hafter, seqRank_millisStart hop hph]
    omega
  · simp at hb
  · have hafter : seqRank (goto 1 (loadMsrem _ s)) = 1 + (s.msrem - 1).toNat * roundSteps s.cfg :=
      seqRank_millisRound hop rfl
    rw [hafter, seqRank_millisRound hop hph, mul_roundSteps_of_ne_zero hrem, roundSteps_skip hmin]
    omega
  · have hafter : seqRank (goto 2 (loadIter (s.cfg.iters 1000) (loadMsrem (s.msrem - 1) s))) =
        2 + (s.cfg.iters 1000).toNat + (s.msrem - 1).toNat * roundSteps s.cfg := seqRank_millisLoop hop rfl
    have hround := roundSteps_loop hmin
    rw [hafter, seqRank_millisRound hop hph, mul_roundSteps_of_ne_zero hrem]
    omega
  · have hafter : seqRank (goto 1 s) = 1 + s.msrem.toNat * roundSteps s.cfg := seqRank_millisRound hop rfl
    rw [hafter, seqRank_millisLoop hop hph]
    omega
  · have hafter : seqRank (loadIter (s.iter - 1) s) = 2 + (s.iter - 1).toNat + s.msrem.toNat * roundSteps s.cfg :=
      seqRank_millisLoop hop hph
    rw [hafter, seqRank_millisLoop hop hph, ← toNat_sub_one hiter]
    omega

end

/-- A phase that does not complete the command leaves fewer SEQ steps to go. -/
theorem phaseOf_seqRank_lt {i : Instr} {s t : State} (hop : s.opc = i.opc) (he : phaseOf i s = .next t)
    (hb : t.busy = true) : seqRank t < seqRank s := by
  obtain ⟨-, -, v, rfl⟩ | ⟨-, -, rfl⟩ | ⟨rfl, h⟩ | ⟨rfl, h⟩ | ⟨⟨us, rfl⟩, h⟩ | ⟨⟨ms, rfl⟩, h⟩ := phaseOf_next he
  · simp at hb
  · simp at hb
  · exact maskedScale_seqRank_lt (.inl hop) h hb
  · exact maskedScale_seqRank_lt (.inr hop) h hb
  · exact delayMicros_seqRank_lt hop h hb
  · exact delayMillis_seqRank_lt hop h hb

/-- A move that is no RESET completes the command in progress, or leaves it in progress; a SEQ step that leaves it in
progress brings it nearer to its end, and no other move takes it further from it. -/
theorem stepWith_busy_cases {m : Move} {s t : State} (hb : s.busy = true) (h : stepWith m s = .next t)
    (hreset : m ≠ .reset) :
    (∃ v u, t = done v u) ∨
    (t.busy = true ∧ seqRank t ≤ seqRank s ∧ (m = .seq → seqRank t < seqRank s)) := by
  cases step_turn h with
  | event hm | interrupt hm | interruptOff hm | portBusy hm =>
    cases hm
    exact .inr ⟨hb, le_rfl, nofun⟩
  | illegal _ hidle | absent _ hidle | accepted _ hidle | sequencerIdle _ hidle =>
    exact absurd (hb.symm.trans hidle) (by decide)
  | phase hm _ hi _ he =>
    obtain hdone | ⟨hbusy, -⟩ := phaseOf_done_or_silent he
    · exact .inl hdone
    · have hbusy : t.busy = true := hbusy.trans hb
      have hlt : seqRank t < seqRank s := phaseOf_seqRank_lt (s := s.pulseOver) (opc_of_instrOfOpc hi).symm he hbusy
      exact .inr ⟨hbusy, hlt.le, fun _ => hlt⟩
  | reset hm => exact absurd hm hreset

/-! ### Completion under fairness (R204) -/

/-- Under weak fairness of SEQ the TBU does not stay busy for ever: the SEQ steps to go never grow, so they would have a
least value, and the next SEQ step would go below it. -/
theorem exists_runUntil_idle {σ : Nat → Move} {s : State} (hs : Inv s) (hreset : ∀ n, σ n ≠ .reset)
    (hfair : fairSeq σ s) : ∃ n t, runUntil σ s n = .next t ∧ t.busy = false := by
  by_contra hno
  have hbusy (n : Nat) : ∃ u, runUntil σ s n = .next u ∧ u.busy = true := by
    obtain ⟨u, hu, -⟩ := hs.runMoves_runs ((List.range n).map σ)
    exact ⟨u, hu, Bool.eq_true_of_not_eq_false fun hidle => hno ⟨n, u, hu, hidle⟩⟩
  choose u hu hb using hbusy
  have hstep (n : Nat) : seqRank (u (n + 1)) ≤ seqRank (u n) ∧ (σ n = .seq → seqRank (u (n + 1)) < seqRank (u n)) := by
    have hnext : stepWith (σ n) (u n) = .next (u (n + 1)) := (runUntil_succ_of (hu n)).symm.trans (hu (n + 1))
    obtain ⟨v, w, hdone⟩ | ⟨-, hcases⟩ := stepWith_busy_cases (hb n) hnext (hreset n)
    · exact absurd (hb (n + 1)) (by simp [hdone])
    · exact hcases
  have hanti : Antitone fun n => seqRank (u n) := antitone_nat_of_succ_le fun n => (hstep n).1
  obtain ⟨m, hm, hseq⟩ := hfair (Function.argmin fun n => seqRank (u n)) fun n _ => ⟨u n, hu n, hb n⟩
  have hlt : seqRank (u (m + 1)) < seqRank (u m) := (hstep m).2 hseq
  have hleast := Function.argmin_le (fun n => seqRank (u n)) (m + 1)
  exact absurd (hlt.trans_le (hanti hm)) hleast.not_gt

/-- Under weak fairness of SEQ a command in progress completes, busy up to the step that ends it. -/
theorem fairSeq_completes {σ : Nat → Move} {s : State} (hs : Inv s) (hb : s.busy = true) (hreset : ∀ n, σ n ≠ .reset)
    (hfair : fairSeq σ s) :
    ∃ n v u, runUntil σ s (n + 1) = .next (done v u) ∧ ∀ m ≤ n, ∃ w, runUntil σ s m = .next w ∧ w.busy = true := by
  have hidle := exists_runUntil_idle hs hreset hfair
  classical
  have hbefore (m : Nat) (hm : m < Nat.find hidle) : ∃ w, runUntil σ s m = .next w ∧ w.busy = true := by
    obtain ⟨w, hw, -⟩ := hs.runMoves_runs ((List.range m).map σ)
    exact ⟨w, hw, Bool.eq_true_of_not_eq_false fun hw' => Nat.find_min hidle hm ⟨w, hw, hw'⟩⟩
  obtain ⟨t, ht, hend⟩ := Nat.find_spec hidle
  cases hfind : Nat.find hidle with
  | zero =>
    rw [hfind] at ht
    cases ht
    exact absurd (hb.symm.trans hend) (by decide)
  | succ n =>
    rw [hfind] at ht hbefore
    obtain ⟨w, hw, hwb⟩ := hbefore n (Nat.lt_succ_self n)
    obtain ⟨v, u, rfl⟩ | ⟨htb, -⟩ := stepWith_busy_cases hwb ((runUntil_succ_of hw).symm.trans ht) (hreset n)
    · exact ⟨n, v, u, ht, fun m hm => hbefore m (Nat.lt_succ_of_le hm)⟩
    · exact absurd (htb.symm.trans hend) (by decide)

/-- A pending event stays pending up to a turn of the interrupt agent. -/
theorem runUntil_pending {σ : Nat → Move} {s u : State} {n : Nat} (hop : s.ovp = true) (hreset : ∀ n, σ n ≠ .reset)
    (hinc : ∀ m < n, σ m ≠ .inc) (h : runUntil σ s n = .next u) : u.cfg = s.cfg ∧ u.ovp = true := by
  refine runMoves_induction (P := fun v => v.cfg = s.cfg ∧ v.ovp = true) (fun m hm v w hv hw => ?_) ⟨rfl, hop⟩ h
  obtain ⟨k, hk, rfl⟩ := List.mem_map.mp hm
  refine ⟨(stepWith_cfg hw).trans hv.1, ?_⟩
  obtain ⟨-, -, hovp⟩ | ⟨hno, -⟩ | ⟨-, -, -, hovp⟩ := stepWith_counter_cases hw (hreset k)
  · rw [hovp, hv.2, Bool.true_or]
  · exact absurd hno (hinc k (List.mem_range.mp hk))
  · rw [hovp, hv.2]

/-- Under weak fairness of INC the interrupt agent gets a turn while a pending event can be taken: up to its first turn the
event stays pending, so with `IE = 1` INC is enabled all along. -/
theorem fairInc_enabledTurn {σ : Nat → Move} {s : State} (hs : Inv s) (htb : s.cfg.tben = true) (hop : s.ovp = true)
    (hreset : ∀ n, σ n ≠ .reset) (hfair : fairInc σ s) (hie : ∀ n u, runUntil σ s n = .next u → u.ie = true) :
    ∃ n u, runUntil σ s n = .next u ∧ σ n = .inc ∧ incEnabled u = true := by
  have hready (n : Nat) (hinc : ∀ m < n, σ m ≠ .inc) : ∃ u, runUntil σ s n = .next u ∧ incEnabled u = true := by
    obtain ⟨u, hu, -⟩ := hs.runMoves_runs ((List.range n).map σ)
    obtain ⟨hcfg, hpending⟩ := runUntil_pending hop hreset hinc hu
    exact ⟨u, hu, incEnabled_iff.mpr ⟨by rw [hcfg, htb], hie n u hu, hpending⟩⟩
  have hturn : ∃ n, σ n = .inc := by
    by_contra hno
    obtain ⟨m, -, hm⟩ := hfair 0 fun n _ => hready n fun k _ hk => hno ⟨k, hk⟩
    exact hno ⟨m, hm⟩
  obtain ⟨u, hu, hinc⟩ := hready (Nat.find hturn) fun _ => Nat.find_min hturn
  exact ⟨_, u, hu, Nat.find_spec hturn, hinc⟩

/-- Settles O55: the SEQ steps to go run out, and an enabled turn of the interrupt agent takes the event. -/
theorem fairSchedulesComplete : Obligations.FairSchedulesComplete := by
  refine ⟨fun σ s hs hb hreset hfair => ?_, fun σ s hs htb hop hreset hfair hie => ?_⟩
  · obtain ⟨n, v, u, hrun, hbefore⟩ := fairSeq_completes hs hb hreset hfair
    exact ⟨n, done v u, v, hrun, rfl, rfl, hbefore⟩
  · obtain ⟨n, u, hu, hm, hinc⟩ := fairInc_enabledTurn hs htb hop hreset hfair hie
    refine ⟨n, u, _, hu, hm, hinc, ?_, takeInterrupt_ovrf u.pulseOver, takeInterrupt_ovp u.pulseOver⟩
    rw [runUntil_succ_of hu, hm]
    exact stepWith_inc_enabled hinc

/-! ### Runs of a program (R208) -/

/-- A word issued to an idle TBU is answered at once or begins a command, and only the end of a command answers it: a
move adds a response for each word it issues and each command it ends, less each command it begins. -/
theorem stepWith_response_count {m : Move} {s t : State} (h : stepWith m s = .next t) (hreset : m ≠ .reset)
    (hidle : ∀ w, m = .issue w → s.busy = false) :
    t.resp.toList.length + t.busy.toNat = s.busy.toNat + (issuedWords [m]).length := by
  cases step_turn h with
  | event hm | interrupt hm | interruptOff hm | sequencerIdle hm =>
    cases hm
    simp [issuedWords]
  | portBusy hm hb =>
    exact absurd (hb.symm.trans (hidle _ hm)) (by decide)
  | illegal hm hb | absent hm hb | accepted hm hb =>
    cases hm
    have hb : s.busy = false := hb
    simp [hb]
  | phase hm hb _ _ he =>
    cases hm
    have hb : s.busy = true := hb
    obtain ⟨v, u, rfl⟩ | ⟨hbusy, hresp⟩ := phaseOf_done_or_silent he
    · simp [hb, issuedWords]
    · simp [hbusy, hresp, issuedWords]
  | reset hm => exact absurd hm hreset

/-- The first part of a run of a program is a run of the words issued in it. -/
theorem ProgramRun.init {ws : List CmdWord} {ms ns : List Move} {s t : State} (h : ProgramRun ws (ms ++ ns) s t) :
    ∃ u, ProgramRun (issuedWords ms) ms s u ∧ runMoves ns u = .next t := by
  obtain ⟨u, hu, ht⟩ := runMoves_append_next.mp h.runs
  refine ⟨u, ⟨h.idle, hu, rfl, fun before w after hms => ?_, fun hm => h.noReset (List.mem_append_left ns hm)⟩, ht⟩
  exact h.inOrder before w (after ++ ns) (by rw [hms, List.append_assoc, List.cons_append])

/-- Every word issued in a run of a program has its response, but for the word of a command still in progress. -/
theorem ProgramRun.response_count {ws : List CmdWord} {ms : List Move} {s t : State} (h : ProgramRun ws ms s t) :
    (responses ms s).length + t.busy.toNat = ws.length := by
  induction ms using List.reverseRecOn generalizing ws t with
  | nil =>
    cases h.runs
    rw [← h.words, h.idle]
    rfl
  | append_singleton ms m ih =>
    obtain ⟨u, hu, ht⟩ := h.init
    have hcount := ih hu
    obtain ⟨v, hstep, hv⟩ := runMoves_cons_next.mp ht
    cases hv
    have hidle (w : CmdWord) (hw : m = .issue w) : u.busy = false := by
      have hanswered := h.inOrder ms w [] (by rw [hw])
      exact Bool.toNat_eq_zero.mp (by omega)
    have hm := stepWith_response_count hstep (fun e => h.noReset (by simp [e])) hidle
    rw [← h.words, responses_append hu.runs, responses_cons hstep, issuedWords_append]
    simp only [responses_nil, List.append_nil, List.length_append]
    omega

/-- A run of a program has ended exactly when no command is in progress. -/
theorem ProgramRun.ended_iff {ws : List CmdWord} {ms : List Move} {s t : State} (h : ProgramRun ws ms s t) :
    ProgramEnded ws ms s ↔ t.busy = false := by
  have hcount := h.response_count
  rw [ProgramEnded, ← Bool.toNat_eq_zero]
  omega

theorem ProgramRun.nil {s : State} (hb : s.busy = false) : ProgramRun [] [] s s :=
  ⟨hb, rfl, rfl, fun _ _ _ h => by simp at h, List.not_mem_nil⟩

/-- A run of a program from where a run of another has ended is a run of both. -/
theorem ProgramRun.append {ws vs : List CmdWord} {ms ns : List Move} {s u t : State} (h : ProgramRun ws ms s u)
    (h' : ProgramRun vs ns u t) : ProgramRun (ws ++ vs) (ms ++ ns) s t where
  idle := h.idle
  runs := runMoves_append_next.mpr ⟨u, h.runs, h'.runs⟩
  words := by rw [issuedWords_append, h.words, h'.words]
  noReset hm := (List.mem_append.mp hm).elim h.noReset h'.noReset
  inOrder before w after hms := by
    have hended : (responses ms s).length = (issuedWords ms).length := by
      rw [h.words]
      exact h.ended_iff.mpr h'.idle
    have hlater (rest : List Move) (hrest : ns = rest ++ .issue w :: after) :
        (responses (ms ++ rest) s).length = (issuedWords (ms ++ rest)).length := by
      rw [responses_append h.runs, issuedWords_append, List.length_append, List.length_append, hended,
        h'.inOrder rest w after hrest]
    obtain ⟨rest, rfl, hrest⟩ | ⟨rest, hfirst, hrest⟩ := List.append_eq_append_iff.mp hms
    · exact hlater rest hrest
    · cases rest with
      | nil =>
        rw [List.append_nil] at hfirst
        simpa [hfirst] using hlater [] hrest.symm
      | cons m rest =>
        cases hrest
        exact h.inOrder before w rest hfirst

/-- A word issued to an idle TBU, with no other word behind it, is a run of the program of that word. -/
theorem ProgramRun.of_word {w : CmdWord} {ms : List Move} {s t : State} (hb : s.busy = false) (hms : undisturbed ms)
    (h : runMoves (.issue w :: ms) s = .next t) : ProgramRun [w] (.issue w :: ms) s t where
  idle := hb
  runs := h
  words := by rw [issuedWords_issue, issuedWords_undisturbed hms]
  noReset hm := by simpa using hms _ (List.mem_of_ne_of_mem (by simp) hm)
  inOrder before v after hsplit := by
    cases before with
    | nil => rfl
    | cons m before =>
      have hmem : .issue v ∈ ms := by
        rw [(List.cons.inj hsplit).2]
        exact List.mem_append_right before List.mem_cons_self
      simpa using hms _ hmem

/-- One word, followed by SEQ steps alone, is a run that ends. -/
theorem Inv.exists_wordRun {s : State} (hs : Inv s) (hb : s.busy = false) (w : CmdWord) :
    ∃ ms t, ProgramRun [w] ms s t ∧ t.busy = false := by
  obtain ⟨u, hu, hinv⟩ := hs.stepWith_runs (.issue w)
  obtain ⟨n, t, ht, hidle⟩ := exists_runUntil_idle (σ := fun _ => .seq) hinv (fun _ => by simp)
    fun n _ => ⟨n, le_rfl, rfl⟩
  exact ⟨_, t, .of_word hb (List.forall_mem_map.mpr fun _ _ => .inl rfl) (runMoves_cons_next.mpr ⟨u, hu, ht⟩), hidle⟩

/-- Every program has a run that ends: one word after the other. -/
theorem Inv.exists_programRun (ws : List CmdWord) {s : State} (hs : Inv s) (hb : s.busy = false) :
    ∃ ms t, ProgramRun ws ms s t ∧ t.busy = false := by
  induction ws generalizing s with
  | nil => exact ⟨[], s, .nil hb, hb⟩
  | cons w ws ih =>
    obtain ⟨ms, u, hu, hub⟩ := hs.exists_wordRun hb w
    obtain ⟨ns, t, ht, htb⟩ := ih (hs.of_runMoves hu.runs) hub
    exact ⟨ms ++ ns, t, hu.append ht, htb⟩

/-- Settles O56: each word but that of a command in progress has its one response. -/
theorem programsEndWithSequencerIdle : Obligations.ProgramsEndWithSequencerIdle := by
  refine ⟨fun ws ms s t hs h => ⟨?_, fun hend => ?_⟩, fun ws s hs hb => ?_⟩
  · exact Nat.le.intro h.response_count
  · have hidle : t.busy = false := h.ended_iff.mp hend
    exact ⟨hidle, (hs.of_runMoves h.runs).idle hidle⟩
  · obtain ⟨ms, t, h, hidle⟩ := hs.exists_programRun ws hb
    exact ⟨ms, t, h, h.ended_iff.mpr hidle⟩

end Sys2Proof.Machine
end
